-- ==== Sys2Proof/Word.lean ====
section
/-!
DEFINITION. The two bit patterns of the machine (00_scope.md R9): a word of 16 bits and an address of 12 bits.
How a word is read as a number and how an address is cut out of a word stand in `Machine/Operands.lean`.
-/

namespace Sys2Proof

/-- A 16-bit bit pattern: a register's contents, a memory cell, an instruction word (R9, R71). -/
abbrev Word := BitVec 16

/-- A 12-bit bit pattern, read unsigned as 0 to 4095 (R9, R50). -/
abbrev Addr := BitVec 12

end Sys2Proof
end

