-- ==== Sys2Proof/Syntax.lean ====
section
/-!
DEFINITION. The 13 instructions, one constructor per row of `spec/opcode_table.json`, with the operands the
decoder of 30_encoding.md R79 gives them. The ignored bits of R77 are no operand (log 9).
-/

namespace Sys2Proof

/-- A decoded instruction (30_encoding.md R74, R79). -/
inductive Instr where
  /-- Opcode 0, jump and store (R150). -/
  | jnS (x : Addr)
  /-- Opcode 1 (R120). -/
  | load (x : Addr)
  /-- Opcode 2 (R121). -/
  | store (x : Addr)
  /-- Opcode 3 (R131). -/
  | add (x : Addr)
  /-- Opcode 4 (R132). -/
  | subt (x : Addr)
  /-- Opcode 5 (R140, R142). -/
  | input
  /-- Opcode 6 (R143). -/
  | output
  /-- Opcode 7 (R151). -/
  | halt
  /-- Opcode 8; `c` is `IR[11:10]`, all four values of which decode (R76, R79, R152). -/
  | skipCond (c : BitVec 2)
  /-- Opcode 9 (R153). -/
  | jump (x : Addr)
  /-- Opcode 10 (R122). -/
  | clear
  /-- Opcode 11, indirect add (R133). -/
  | addI (x : Addr)
  /-- Opcode 12, indirect jump (R154). -/
  | jumpI (x : Addr)
deriving DecidableEq, Repr

end Sys2Proof
end

