-- ==== Sys2Proof/Decode.lean ====
section
/-!
DEFINITION. The decoder of 30_encoding.md R79, total on 16-bit words, and after it the encoder, written from the
same table (R74).
-/

namespace Sys2Proof

/-- `op(IR)`, bits 15 to 12 (00_scope.md R10). -/
def opField (w : Word) : BitVec 4 := w.extractLsb' 12 4

/-- `operand(IR)`, bits 11 to 0 (00_scope.md R10). -/
def operandField (w : Word) : Addr := w.extractLsb' 0 12

/-- The SkipCond condition `c`, bits 11 to 10 (30_encoding.md R70, R76). -/
def condField (w : Word) : BitVec 2 := w.extractLsb' 10 2

/-- The decoder's verdict: "Instr or Illegal" (R79). -/
inductive Decoded where
  /-- The word is an instruction word. -/
  | instr (i : Instr)
  /-- The opcode is 13, 14 or 15 (R75); the verdict that raises `IllegalOpcode`. -/
  | illegalOpcode (op : BitVec 4)
deriving DecidableEq, Repr

/-- The decoder (R79): bits 15 to 12 alone select the instruction (R74). -/
def decode (w : Word) : Decoded :=
  match (opField w).toNat with
  | 0 => .instr (.jnS (operandField w))
  | 1 => .instr (.load (operandField w))
  | 2 => .instr (.store (operandField w))
  | 3 => .instr (.add (operandField w))
  | 4 => .instr (.subt (operandField w))
  | 5 => .instr .input
  | 6 => .instr .output
  | 7 => .instr .halt
  | 8 => .instr (.skipCond (condField w))
  | 9 => .instr (.jump (operandField w))
  | 10 => .instr .clear
  | 11 => .instr (.addI (operandField w))
  | 12 => .instr (.jumpI (operandField w))
  | _ => .illegalOpcode (opField w)

/-- An instruction word put together from its opcode and operand fields (R70). -/
def instrWord (op : BitVec 4) (operand : BitVec 12) : Word := op ++ operand

/-- The operand field of a SkipCond word: `c` in bits 11 to 10, the ignored bits 9 to 0 (R70). -/
def condOperand (c : BitVec 2) (ignored : BitVec 10) : BitVec 12 := c ++ ignored

/-- The encoder, from the table of R74; ignored bits are written 0 (R77, R93). -/
def encode : Instr → Word
  | .jnS x => instrWord 0 x
  | .load x => instrWord 1 x
  | .store x => instrWord 2 x
  | .add x => instrWord 3 x
  | .subt x => instrWord 4 x
  | .input => instrWord 5 0
  | .output => instrWord 6 0
  | .halt => instrWord 7 0
  | .skipCond c => instrWord 8 (condOperand c 0)
  | .jump x => instrWord 9 x
  | .clear => instrWord 10 0
  | .addI x => instrWord 11 x
  | .jumpI x => instrWord 12 x

/-- The instruction's word as `spec/opcode_table.json` numbers its bits: one 16-bit word, the bits above `nbits`
zero. -/
def tableWord (nbits w : Nat) : Word := BitVec.ofNat 16 (w % 2 ^ min nbits 16)

/-- What `decode` reads from the opcode-table word `w`, `none` where it refuses. -/
def decodeTableWord (nbits w : Nat) : Option Instr :=
  match decode (tableWord nbits w) with
  | .instr i => some i
  | .illegalOpcode _ => none

end Sys2Proof
end

