-- ==== Sys2Proof/WellFormed.lean ====
section
/-!
DEFINITION. Which terms stand for something the spec admits. An instruction's operands are bit vectors of the
width of their field, so no instruction term is ill-formed; a loadable program can be.
-/

namespace Sys2Proof

/-- Every instruction term is well-formed: R73 admits every 12-bit address and R79 decodes every condition.
One line per constructor, so that a new instruction cannot slip past. -/
def Instr.wf : Instr → Bool
  | .jnS _ => true
  | .load _ => true
  | .store _ => true
  | .add _ => true
  | .subt _ => true
  | .input => true
  | .output => true
  | .halt => true
  | .skipCond _ => true
  | .jump _ => true
  | .clear => true
  | .addI _ => true
  | .jumpI _ => true

/-- A loadable program: "an ordered collection of (address, resolved 16-bit word) pairs" (R192). -/
abbrev Program := List (Nat × Word)

/-- Every address of the program is in 0 to 4095 (R192). -/
def Program.inRange (p : Program) : Bool := p.all fun c => decide (c.1 < 4096)

/-- No two words of the program have one address (R192). -/
def Program.distinct : Program → Bool
  | [] => true
  | c :: p => p.all (fun d => decide (c.1 ≠ d.1)) && Program.distinct p

/-- `start` is the address of the program's first word (R192); the empty program has none (log 6). -/
def Program.startsAt (p : Program) (start : Nat) : Bool := decide (p.head?.map Prod.fst = some start)

/-- The form R192 asks of a program and its start address. -/
def Program.wf (p : Program) (start : Nat) : Bool := p.inRange && p.distinct && p.startsAt start

end Sys2Proof
end

