-- ==== Sys2Proof/Machine/State.lean ====
section
/-!
DEFINITION. The machine state of 10_state.md R20 as plain data, the host's operations as data, the reasons a
step can stop, and the state after reset (R37).
-/

namespace Sys2Proof.Machine

/-- Memory: (address, word) pairs with strictly rising addresses below 4096 and no word 0; a cell that is not
listed holds 0 (R28, R37; log 1). `Memory.wf` in `Ops.lean` says this form. -/
abbrev Memory := List (Nat × Word)

/-- The eight values of `run_state` (R30). -/
inductive RunState where
  /-- Created, never reset (R190). -/
  | uninitialized
  /-- Reset, no program (R191). -/
  | noProgramLoaded
  /-- The only state from which an instruction is fetched. -/
  | running
  /-- An Input waits for the host (R140). -/
  | blockedOnInput
  /-- Single-step mode, between two `step` calls (R194). -/
  | paused
  /-- Stopped without error (R151); also the "ready-to-run" state after `load` (R192). -/
  | haltedNormal
  /-- Stopped by an interpreter error (R171). -/
  | haltedAbnormal
  /-- Stopped by the host's `request_stop` (R196). -/
  | haltedByUser
deriving DecidableEq, Repr, Inhabited

/-- The error kinds (R33, R172). -/
inductive ErrorKind where
  /-- Held while `fatal` is false. -/
  | none
  /-- Opcode 13, 14 or 15, raised by the fetch (R103). -/
  | illegalOpcode
  /-- SkipCond with condition 11 (R152). -/
  | illegalCondition
  /-- A sum or difference outside −32768 to 32767 (R130). -/
  | registerOverflow
  /-- An address outside 0 to 4095; no rule raises it (R55, log 7). -/
  | addressOutOfRange
  /-- An instruction fetched from address 4095 (R105). -/
  | maxAddressExceeded
deriving DecidableEq, Repr, Inhabited

/-- The machine state (R20). -/
structure State where
  /-- AC, the accumulator (R21). -/
  ac : Word
  /-- IR, the instruction register (R22). -/
  ir : Word
  /-- MAR, the memory address register (R23). -/
  mar : Addr
  /-- MBR, the memory buffer register (R24). -/
  mbr : Word
  /-- PC, the program counter (R25). -/
  pc : Addr
  /-- INPUT, written by the host (R26). -/
  input : Word
  /-- OUTPUT, read by the host (R27). -/
  output : Word
  /-- M, the memory (R28). -/
  mem : Memory
  /-- run_state (R30). -/
  runState : RunState
  /-- fatal (R32). -/
  fatal : Bool
  /-- error_kind (R33). -/
  errorKind : ErrorKind
  /-- The output sequence, oldest word first (R34). -/
  outputs : List Word
  /-- input_ready (R35). -/
  inputReady : Bool
  /-- stop_requested (R35). -/
  stopRequested : Bool
  /-- ready (R35). -/
  ready : Bool
  /-- single_step (R35). -/
  singleStep : Bool
deriving DecidableEq, Repr, Inhabited

/-- The host's operations (70_reset_and_hazards.md section 1 and 2, 43_io.md R141). -/
inductive HostOp where
  /-- `reset()` (R191). -/
  | reset
  /-- `load(program, start)` (R192). -/
  | load (program : Program) (start : Nat)
  /-- `start(single_step)` (R193). -/
  | start (singleStep : Bool)
  /-- `step()` of single-step mode (R194). -/
  | step
  /-- `resume()` (R195). -/
  | resume
  /-- `request_stop()` (R196). -/
  | requestStop
  /-- `supply_input(v)` (R141). -/
  | supplyInput (v : Word)
deriving DecidableEq, Repr

/-- Why `step` has no next state: the machine has no transition there (R197, R198, R203; log 2), or a host read
has no value. An error of the interpreter is none of these: it is a next state (R171). -/
inductive Fault where
  /-- Raised by `step`: created, never reset; waits for `reset` (R190). Safe: the machine stays as it is. -/
  | holdUninitialized
  /-- Raised by `step`: waits for `load` (R198). Safe. -/
  | holdNoProgram
  /-- Raised by `step`: loaded, waits for `start` (R198). Safe. -/
  | holdReadyToStart
  /-- Raised by `step`: Paused, waits for the host's `step` or `resume` (R198). Safe. -/
  | holdPaused
  /-- Raised by `step`: BlockedOnInput, waits for `supply_input` (R198). Safe. -/
  | holdAwaitingInput
  /-- Raised by `step`: a cycle is defined, but in single-step mode only the host's `step` takes it (R197). Safe. -/
  | holdSingleStep
  /-- Raised by `step`: the run is over in HaltedNormal (R198). Safe. -/
  | endHaltedNormal
  /-- Raised by `step`: the run is over in HaltedAbnormal (R198). Safe. -/
  | endHaltedAbnormal
  /-- Raised by `step`: the run is over in HaltedByUser (R198). Safe. -/
  | endHaltedByUser
  /-- Raised by `hostRead`: the component has no value before the first reset (R38, log 30). Safe. -/
  | readBeforeReset
deriving DecidableEq, Repr

/-- Why an operation has no meaning. -/
inductive Refusal where
  /-- Raised by an arm of `exec` that has no meaning yet; no arm is left so. Safe. -/
  | notModelled (mnemonic : String)
  /-- Raised by `hostStep`: the operation is not admitted in this state; "refused and changes nothing" (R203). Safe. -/
  | notAdmitted (op : HostOp)
deriving DecidableEq, Repr

/-- The machine right after `reset()` (R37, R191). -/
def State.reset : State :=
  { ac := 0, ir := 0, mar := 0, mbr := 0, pc := 0, input := 0, output := 0, mem := [],
    runState := .noProgramLoaded, fatal := false, errorKind := .none, outputs := [],
    inputReady := false, stopRequested := false, ready := false, singleStep := false }

end Sys2Proof.Machine
end

