-- ==== Sys2Proof/Config.lean ====
section
/-!
DEFINITION. What is fixed for the machine (00_scope.md R7) and the free values. R7 leaves nothing to the
implementation; the one free value of the machine is its contents before the first reset (R38).
-/

namespace Sys2Proof

/-- The number of memory words (R7). -/
def Config.memWords : Nat := 4096

/-- The highest address, at which the fetch's increment raises `MaxAddressExceeded` (R105). -/
def Config.topAddr : Addr := 4095

/-- A FREE VALUE (log 4): what the components of a created machine hold before the first reset, which R38 leaves
unspecified. It has no body, so no proof can see it. -/
opaque Config.beforeReset : Machine.State

/-- A FREE VALUE (log 29): whether a `HEX` literal whose value is outside the word range is accepted; the range rule is
not in the source (91_not_in_source.md N9). It has no body, and the machine does not use it. -/
opaque Config.hexLiteralAccepted : Int → Bool

end Sys2Proof
end

