-- ==== Sys2Proof/Machine/Ops.lean ====
section
/-!
DEFINITION. The named operations over memory and registers: the canonical memory (log 1), one write operation
per register, `MemRead` and `MemWrite` (20_memory.md R56), the output register and sequence, and the one shared
error action `raise Fatal(k)` (60_exceptions.md R171). There is no return from an error (R175).
-/

namespace Sys2Proof.Machine

/-- The word at address `a`; 0 where nothing is listed (R37). -/
def Memory.read : Memory → Nat → Word
  | [], _ => 0#16
  | (b, w) :: m, a => if a = b then w else Memory.read m a

/-- The memory with word `v` at address `a`, in canonical form again: writing 0 removes the entry. -/
def Memory.write : Memory → Nat → Word → Memory
  | [], a, v => if v = 0#16 then [] else [(a, v)]
  | (b, w) :: m, a, v =>
    if a < b then (if v = 0#16 then (b, w) :: m else (a, v) :: (b, w) :: m)
    else if a = b then (if v = 0#16 then m else (a, v) :: m)
    else (b, w) :: Memory.write m a v

/-- The canonical form: addresses below 4096 and strictly rising, no listed word 0. -/
def Memory.wf : Memory → Bool
  | [] => true
  | (a, w) :: m =>
    decide (a < Config.memWords) && decide (w ≠ 0#16) && m.all (fun c => decide (a < c.1)) && Memory.wf m

/-- AC <- v (R21). -/
def State.setAc (s : State) (v : Word) : State := { s with ac := v }

/-- IR <- v (R22). -/
def State.setIr (s : State) (v : Word) : State := { s with ir := v }

/-- MAR <- a; the masking of R23 is in the width of `a`. -/
def State.setMar (s : State) (a : Addr) : State := { s with mar := a }

/-- MBR <- v (R24). -/
def State.setMbr (s : State) (v : Word) : State := { s with mbr := v }

/-- PC <- a; the masking of R25 is in the width of `a`. -/
def State.setPc (s : State) (a : Addr) : State := { s with pc := a }

/-- INPUT <- v (R26). -/
def State.setInput (s : State) (v : Word) : State := { s with input := v }

/-- run_state <- r (R30). -/
def State.setRunState (s : State) (r : RunState) : State := { s with runState := r }

/-- `MemRead(a)`: the word at `a`; no state changes (R56). -/
def State.memRead (s : State) (a : Addr) : Word := s.mem.read a.toNat

/-- `MemWrite(a, v)`: M[a] <- v; no other cell and no register changes (R56). -/
def State.memWrite (s : State) (a : Addr) (v : Word) : State := { s with mem := s.mem.write a.toNat v }

/-- OUTPUT <- v and v appended to the output sequence (R34, R143). -/
def State.emit (s : State) (v : Word) : State := { s with output := v, outputs := s.outputs ++ [v] }

/-- `raise Fatal(k)` (R171): the one action by which the machine takes an error. The rest of the cycle is not
performed, which is the caller's part; nothing done before is undone. -/
def State.raiseFatal (s : State) (k : ErrorKind) : State :=
  { s with fatal := true, errorKind := k, runState := .haltedAbnormal }

/-- The code the spec gives an error kind (R172). -/
def ErrorKind.code : ErrorKind → Nat
  | .none => 0
  | .illegalOpcode => 1
  | .illegalCondition => 2
  | .registerOverflow => 3
  | .addressOutOfRange => 4
  | .maxAddressExceeded => 5

/-- The created machine (R190): Uninitialized, every other component unspecified (R38, log 4). -/
def State.created : State := { Config.beforeReset with runState := .uninitialized }

end Sys2Proof.Machine
end

