-- ==== Sys2Proof/Machine/Operands.lean ====
section
/-!
DEFINITION. Numbers and addresses: how a word is read as a number (00_scope.md R9), the memory address
translator (20_memory.md R54), and the operand forms (30_encoding.md R72): an address whose fetch pre-loads MAR
and MBR, a condition, or an ignored field.
-/

namespace Sys2Proof.Machine

/-- `sval(w)`: the signed value, −32768 to 32767 (R9). -/
def sval (w : Word) : Int := w.toInt

/-- `uval(w)`: the unsigned value, 0 to 65535 (R9). -/
def uval (w : Word) : Nat := w.toNat

/-- `word(n)`: the two's-complement pattern of n (R9). -/
def wordOf (n : Int) : Word := BitVec.ofInt 16 n

/-- `mask12(n)`: n modulo 4096 (R9). -/
def mask12 (n : Nat) : Addr := BitVec.ofNat 12 n

/-- `zext_16(a)`: an address widened to a word with zero bits (R9). -/
def zext16 (a : Addr) : Word := a.setWidth 16

/-- The cell a word names when it is used as an address, `MBR[11:0] = mask12(uval(MBR))` (R54). -/
def pointee (w : Word) : Addr := mask12 (uval w)

/-- The address one above `a`, masked: `mask12(a + 1)` (R54). -/
def nextAddr (a : Addr) : Addr := mask12 (a.toNat + 1)

/-- The address operand of the address-taking opcodes 0, 1, 2, 3, 4, 9, 11 and 12, `none` for the others
(R72; the set is decision D2, log 10). -/
def operandAddr : Instr → Option Addr
  | .jnS x => some x
  | .load x => some x
  | .store x => some x
  | .add x => some x
  | .subt x => some x
  | .input => none
  | .output => none
  | .halt => none
  | .skipCond _ => none
  | .jump x => some x
  | .clear => none
  | .addI x => some x
  | .jumpI x => some x

/-- MAR <- a; MBR <- MemRead(MAR): one read of memory through the translator (R104, R133). -/
def State.readThrough (s : State) (a : Addr) : State :=
  let s := s.setMar a
  s.setMbr (s.memRead s.mar)

/-- The fetch's operand pre-load (R104). -/
def preload (i : Instr) (s : State) : State :=
  match operandAddr i with
  | some x => s.readThrough x
  | none => s

end Sys2Proof.Machine
end

