-- ==== Sys2Proof/Machine/Flags.lean ====
section
/-!
DEFINITION. The machine has no flags (10_state.md R29). What other machines keep in flags is computed where it is
needed: the range test and result of the ALU (42_arithmetic.md R130), and SkipCond's test of AC (44_control.md
R152).
-/

namespace Sys2Proof.Machine

/-- n is a legal word: −32768 ≤ n ≤ 32767 (R130). -/
def inWordRange (n : Int) : Bool := decide (-32768 ≤ n) && decide (n ≤ 32767)

/-- The end of `alu` (R130): the exact result `n` is written to AC, or `RegisterOverflow` is raised and AC keeps its
value (decision D6, log 14). -/
def State.aluResult (s : State) (n : Int) : State :=
  if inWordRange n then s.setAc (wordOf n) else s.raiseFatal .registerOverflow

/-- `alu(+, AC, MBR)` (R130). -/
def State.aluAdd (s : State) : State := s.aluResult (sval s.ac + sval s.mbr)

/-- `alu(-, AC, MBR)` (R130). -/
def State.aluSub (s : State) : State := s.aluResult (sval s.ac - sval s.mbr)

/-- SkipCond's test of AC by the condition field (R152); `none` for the illegal condition 11. -/
def skipTest (c : BitVec 2) (ac : Word) : Option Bool :=
  match c.toNat with
  | 0 => some (decide (sval ac < 0))
  | 1 => some (decide (sval ac = 0))
  | 2 => some (decide (0 < sval ac))
  | _ => none

end Sys2Proof.Machine
end

