-- ==== Sys2Proof/Machine/Arithmetic.lean ====
section
/-!
DEFINITION. Add, Subt, AddI (42_arithmetic.md): the execute phase, with MAR = X and MBR = M[X] from the fetch.
-/

namespace Sys2Proof.Machine

/-- Add X: alu(+, AC, MBR) (R131). -/
def execAdd (s : State) : Host.Outcome State Fault Refusal := .next s.aluAdd

/-- Subt X: alu(-, AC, MBR), AC minus memory (R132). -/
def execSubt (s : State) : Host.Outcome State Fault Refusal := .next s.aluSub

/-- AddI X: MAR <- MBR[11:0]; MBR <- MemRead(MAR); alu(+, AC, MBR) (R133; bits 15 to 12 of the pointer are dropped,
decision D7, log 15). -/
def execAddI (s : State) : Host.Outcome State Fault Refusal := .next (s.readThrough (pointee s.mbr)).aluAdd

end Sys2Proof.Machine
end

