-- ==== Sys2Proof/Machine/Control.lean ====
section
/-!
DEFINITION. JnS, Halt, SkipCond, Jump, JumpI (44_control.md): the execute phase, with PC = the instruction's
address + 1. Every PC write here is masked and raises nothing (decision D5, log 13). The operand is the decoded
instruction's own, equal to `operand(IR)` in every cycle (log 8).
-/

namespace Sys2Proof.Machine

/-- JnS X: MemWrite(X, zext_16(PC)); PC <- mask12(X + 1) (R150; AC and MBR are kept, decision D8, log 16). -/
def execJnS (x : Addr) (s : State) : Host.Outcome State Fault Refusal :=
  .next ((s.memWrite x (zext16 s.pc)).setPc (nextAddr x))

/-- Halt: HaltedNormal, or HaltedAbnormal if `fatal` was already set (R151). -/
def execHalt (s : State) : Host.Outcome State Fault Refusal :=
  .next (s.setRunState (if s.fatal then .haltedAbnormal else .haltedNormal))

/-- SkipCond c: PC <- mask12(PC + 1) when the condition holds; condition 11 raises `IllegalCondition` (R152). -/
def execSkipCond (c : BitVec 2) (s : State) : Host.Outcome State Fault Refusal :=
  match skipTest c s.ac with
  | some true => .next (s.setPc (nextAddr s.pc))
  | some false => .next s
  | none => .next (s.raiseFatal .illegalCondition)

/-- Jump X: PC <- X (R153). -/
def execJump (x : Addr) (s : State) : Host.Outcome State Fault Refusal := .next (s.setPc x)

/-- JumpI X: PC <- MBR[11:0], one level of indirection (R154, 90_conflicts.md C3, log 27). -/
def execJumpI (s : State) : Host.Outcome State Fault Refusal := .next (s.setPc (pointee s.mbr))

end Sys2Proof.Machine
end

