-- ==== Sys2Proof/Machine/DataTransfer.lean ====
section
/-!
DEFINITION. Load, Store, Clear (41_data_transfer.md): the execute phase, after the fetch of
40_instruction_cycle.md R100 (PC advanced; for Load and Store MAR = X and MBR = M[X]).
-/

namespace Sys2Proof.Machine

/-- Load X: AC <- MBR (R120). -/
def execLoad (s : State) : Host.Outcome State Fault Refusal := .next (s.setAc s.mbr)

/-- Store X: MBR <- AC; MemWrite(MAR, MBR) (R121). -/
def execStore (s : State) : Host.Outcome State Fault Refusal :=
  let s := s.setMbr s.ac
  .next (s.memWrite s.mar s.mbr)

/-- Clear: AC <- 0 (R122). -/
def execClear (s : State) : Host.Outcome State Fault Refusal := .next (s.setAc 0)

end Sys2Proof.Machine
end

