-- ==== Sys2Proof/Machine/InputOutput.lean ====
section
/-!
DEFINITION. Input and Output (43_io.md). Input has two phases: the execute phase of its own cycle, which blocks,
and a completion that is a cycle without a fetch (R142, decision D11, log 18).
-/

namespace Sys2Proof.Machine

/-- Input, first phase: run_state <- BlockedOnInput (R140). -/
def execInput (s : State) : Host.Outcome State Fault Refusal := .next (s.setRunState .blockedOnInput)

/-- Input, second phase: AC <- INPUT; input_ready <- false; run_state <- Running (R142). -/
def completeInput (s : State) : State :=
  { s with ac := s.input, inputReady := false, runState := .running }

/-- Output: OUTPUT <- AC, and the word is appended to the output sequence (R143). -/
def execOutput (s : State) : Host.Outcome State Fault Refusal := .next (s.emit s.ac)

end Sys2Proof.Machine
end

