-- ==== Sys2Proof/Machine/Dispatch.lean ====
section
/-!
DEFINITION. The execute phase of one cycle, dispatched by instruction (40_instruction_cycle.md R106).
-/

namespace Sys2Proof.Machine

def exec (i : Instr) (s : State) : Host.Outcome State Fault Refusal :=
  match i with
  | .jnS x => Sys2Proof.Machine.execJnS x s
  | .load _ => Sys2Proof.Machine.execLoad s
  | .store _ => Sys2Proof.Machine.execStore s
  | .add _ => Sys2Proof.Machine.execAdd s
  | .subt _ => Sys2Proof.Machine.execSubt s
  | .input => Sys2Proof.Machine.execInput s
  | .output => Sys2Proof.Machine.execOutput s
  | .halt => Sys2Proof.Machine.execHalt s
  | .skipCond c => Sys2Proof.Machine.execSkipCond c s
  | .jump x => Sys2Proof.Machine.execJump x s
  | .clear => Sys2Proof.Machine.execClear s
  | .addI _ => Sys2Proof.Machine.execAddI s
  | .jumpI _ => Sys2Proof.Machine.execJumpI s

end Sys2Proof.Machine
end

