-- ==== Sys2Proof/Machine/Cycle.lean ====
section
/-!
DEFINITION. The instruction cycle (40_instruction_cycle.md R100): fetch with opcode check, operand pre-load and PC
increment, then execute; and the completion of a blocked Input.
-/

namespace Sys2Proof.Machine

/-- What the fetch phase comes to. -/
inductive Fetched where
  /-- The fetch raised an error: the cycle is over in this state (R171). -/
  | raised (s : State)
  /-- The instruction to execute and the state its execute phase sees (R107). -/
  | ready (i : Instr) (s : State)
deriving DecidableEq, Repr

/-- Fetch steps 1 and 2: MAR <- PC; IR <- MemRead(MAR) (R101, R102). -/
def fetchWord (s : State) : State :=
  let s := s.setMar s.pc
  s.setIr (s.memRead s.mar)

/-- The PC increment at the end of fetch (R105): from 4095 PC is written 0 and `MaxAddressExceeded` is raised
(decision D4, log 12). -/
def advancePc (i : Instr) (s : State) : Fetched :=
  if s.pc = Config.topAddr then .raised ((s.setPc 0).raiseFatal .maxAddressExceeded)
  else .ready i (s.setPc (nextAddr s.pc))

/-- The fetch phase (R101 to R105); the opcode check stands at once after the IR load (R103, decision D3, log 11). -/
def fetch (s : State) : Fetched :=
  let s := fetchWord s
  match decode s.ir with
  | .illegalOpcode _ => .raised (s.raiseFatal .illegalOpcode)
  | .instr i => advancePc i (preload i s)

/-- A cycle taken in Running: one fetch followed by one execute (R100). -/
def fetchExecute (s : State) : Host.Outcome State Fault Refusal :=
  match fetch s with
  | .raised t => .next t
  | .ready i t => exec i t

/-- `cycle` is defined when Running, or BlockedOnInput with input supplied (R100). -/
def cycleDefined (s : State) : Bool :=
  match s.runState with
  | .running => true
  | .blockedOnInput => s.inputReady
  | _ => false

/-- The reason the machine has no transition of its own in a state where neither `stop` nor `run` is enabled
(R198, R203; log 2). -/
def holdReason (s : State) : Fault :=
  match s.runState with
  | .uninitialized => .holdUninitialized
  | .noProgramLoaded => .holdNoProgram
  | .running => .holdSingleStep
  | .blockedOnInput => if s.inputReady then .holdSingleStep else .holdAwaitingInput
  | .paused => .holdPaused
  | .haltedNormal => if s.ready then .holdReadyToStart else .endHaltedNormal
  | .haltedAbnormal => .endHaltedAbnormal
  | .haltedByUser => .endHaltedByUser

/-- `cycle()` (R100): a fetch and an execute, or the completion of a blocked Input (R142); elsewhere the machine has
no step. -/
def cycle (s : State) : Host.Outcome State Fault Refusal :=
  if cycleDefined s then
    match s.runState with
    | .running => fetchExecute s
    | _ => .next (completeInput s)
  else .fault (holdReason s)

/-- The stop transition is enabled (R197). -/
def stopEnabled (s : State) : Bool :=
  s.stopRequested &&
    match s.runState with
    | .running => true
    | .paused => true
    | .blockedOnInput => true
    | _ => false

/-- The effect of the stop transition (R196). -/
def takeStop (s : State) : State := { s with runState := .haltedByUser, stopRequested := false }

/-- The run transition is enabled (R197). -/
def runEnabled (s : State) : Bool := !s.stopRequested && !s.singleStep && cycleDefined s

/-- The machine's own transition, if it has one (R197): stop while it is enabled, else run. -/
def runControl (s : State) : Host.Outcome State Fault Refusal :=
  if stopEnabled s then .next (takeStop s)
  else if runEnabled s then cycle s
  else .fault (holdReason s)

/-- `s` running in continuous mode with the word `w` at its PC: what a host's `load` and `start(false)` come to for
that one word (R192, R193; log 3). -/
def placeAtPc (s : State) (w : Word) : State :=
  { s.memWrite s.pc w with runState := .running, ready := false, singleStep := false, stopRequested := false }

end Sys2Proof.Machine
end

