-- ==== Sys2Proof/Machine/Step.lean ====
section
/-!
DEFINITION. One step of the machine: its own transition under the run control (70_reset_and_hazards.md R197).
-/

namespace Sys2Proof.Machine

/-- One step: the stop transition or one cycle; a named fault where the machine has no transition (log 2). -/
def step (s : State) : Host.Outcome State Fault Refusal := runControl s

/-- `s` with the opcode-table word `w` stored where `step` fetches next, and running (log 3). -/
def State.withFetchWord (s : State) (nbits w : Nat) : State := placeAtPc s (tableWord nbits w)

end Sys2Proof.Machine
end

