-- ==== Sys2Proof/Machine/HostOps.lean ====
section
/-!
DEFINITION. The host's operations on the machine (70_reset_and_hazards.md R191 to R196, 43_io.md R141), when each is
admitted (R203), and what the host may read (10_state.md R36). Each is one atomic transition between cycles.
-/

namespace Sys2Proof.Machine

/-- Copies a program's words into memory, in its order (R192). -/
def copyProgram : Program → Memory → Memory
  | [], m => m
  | (a, w) :: p, m => copyProgram p (m.write a w)

/-- `load`'s effect (R192). -/
def loadProgram (p : Program) (start : Nat) (s : State) : State :=
  { s with mem := copyProgram p s.mem, pc := mask12 start, ready := true, runState := .haltedNormal }

/-- `start`'s effect (R193). -/
def startRun (single : Bool) (s : State) : State :=
  { s with ready := false, stopRequested := false, singleStep := single,
           runState := if single then .paused else .running }

/-- `resume`'s effect (R195). -/
def resumeRun (s : State) : State := { s with singleStep := false, runState := .running }

/-- `supply_input(v)`'s effect (R141). -/
def supplyWord (v : Word) (s : State) : State := { s.setInput v with inputReady := true }

/-- `request_stop`'s effect: the flag alone; the stop itself is the machine's next transition (R196). -/
def requestStop (s : State) : State := { s with stopRequested := true }

/-- A single-step call's state when its cycle begins: Running if it was Paused (R194). -/
def unpause (s : State) : State :=
  match s.runState with
  | .paused => s.setRunState .running
  | _ => s

/-- A single-step call's state after its cycle: Paused if it is still Running (R194). -/
def pauseAgain (s : State) : State :=
  match s.runState with
  | .running => s.setRunState .paused
  | _ => s

/-- `step()` in single-step mode: exactly one cycle (R194). -/
def singleStepCycle (s : State) : Host.Outcome State Fault Refusal :=
  match cycle (unpause s) with
  | .next t => .next (pauseAgain t)
  | .fault r => .fault r
  | .refused r => .refused r

/-- When a host operation is admitted (R203, with the conditions of R141 and R191 to R196). -/
def admitted (op : HostOp) (s : State) : Bool :=
  match op with
  | .reset => true
  | .load p start => decide (s.runState = .noProgramLoaded) && p.wf start
  | .start _ => decide (s.runState = .haltedNormal) && s.ready
  | .step =>
    s.singleStep && !s.stopRequested &&
      (decide (s.runState = .paused) || (decide (s.runState = .blockedOnInput) && s.inputReady))
  | .resume => decide (s.runState = .paused)
  | .requestStop =>
    decide (s.runState = .running) || decide (s.runState = .paused) || decide (s.runState = .blockedOnInput)
  | .supplyInput _ => decide (s.runState = .blockedOnInput) && !s.inputReady

/-- What an admitted host operation does. -/
def hostEffect (op : HostOp) (s : State) : Host.Outcome State Fault Refusal :=
  match op with
  | .reset => .next State.reset
  | .load p start => .next (loadProgram p start s)
  | .start single => .next (startRun single s)
  | .step => singleStepCycle s
  | .resume => .next (resumeRun s)
  | .requestStop => .next (requestStop s)
  | .supplyInput v => .next (supplyWord v s)

/-- One operation of the host: refused, changing nothing, where it is not admitted (R203). -/
def hostStep (op : HostOp) (s : State) : Host.Outcome State Fault Refusal :=
  if admitted op s then hostEffect op s else .refused (.notAdmitted op)

/-- What the host may ask for (R36): every register, every cell, run_state, fatal, error_kind and outputs. -/
inductive HostQuery where
  | ac | ir | mar | mbr | pc | input | output | runState | fatal | errorKind | outputs
  | cell (a : Addr)
deriving DecidableEq, Repr

/-- The value a host read gives. -/
inductive HostAnswer where
  | word (w : Word)
  | addr (a : Addr)
  | runState (r : RunState)
  | flag (b : Bool)
  | errorKind (k : ErrorKind)
  | words (ws : List Word)
deriving DecidableEq, Repr

/-- A component's value. -/
def answer (q : HostQuery) (s : State) : HostAnswer :=
  match q with
  | .ac => .word s.ac
  | .ir => .word s.ir
  | .mar => .addr s.mar
  | .mbr => .word s.mbr
  | .pc => .addr s.pc
  | .input => .word s.input
  | .output => .word s.output
  | .runState => .runState s.runState
  | .fatal => .flag s.fatal
  | .errorKind => .errorKind s.errorKind
  | .outputs => .words s.outputs
  | .cell a => .word (s.memRead a)

/-- A host read: it changes nothing (R56); before the first reset only `run_state` has a value and any other read
faults (R38, log 30). -/
def hostRead (q : HostQuery) (s : State) : Except Fault HostAnswer :=
  if s.runState = .uninitialized ∧ q ≠ .runState then .error .readBeforeReset else .ok (answer q s)

end Sys2Proof.Machine
end

