-- ==== Sys2Proof/Safety.lean ====
section
/-!
DEFINITION. The terms the claims are made in: a machine that runs continuously, the invariant every transition
keeps, and the states a machine and its host can reach.
-/

namespace Sys2Proof.Machine

/-- The machine runs: Running, continuous mode, no stop requested, so that its transition is a cycle with a fetch
(R100, R197). -/
abbrev State.Runs (s : State) : Prop :=
  s.runState = .running ∧ s.singleStep = false ∧ s.stopRequested = false

/-- The word at the PC is the instruction `i`. -/
abbrev State.Fetches (s : State) (i : Instr) : Prop := decode (s.memRead s.pc) = .instr i

/-- What the execute phase of `i`, fetched in `s`, sees (R107): IR the instruction word, PC one further, and for an
address-taking opcode MAR the operand and MBR the word there, else MAR the instruction's address and MBR as
before. -/
def State.atExecute (s : State) (i : Instr) : State :=
  { s with
    ir := s.memRead s.pc
    mar := (operandAddr i).getD s.pc
    mbr := ((operandAddr i).map s.memRead).getD s.mbr
    pc := s.pc + 1 }

/-- The bits of an instruction's word that are not ignored (R74, R77). -/
def usedBits : Instr → Word
  | .input | .output | .halt | .clear => 0xF000#16
  | .skipCond _ => 0xFC00#16
  | .jnS _ | .load _ | .store _ | .add _ | .subt _ | .jump _ | .addI _ | .jumpI _ => 0xFFFF#16

/-- The run is over or waits in a state only the host leaves: the terminal states of R31. -/
abbrev State.Terminal (s : State) : Prop :=
  s.runState = .haltedNormal ∨ s.runState = .haltedAbnormal ∨ s.runState = .haltedByUser

/-- The error state is consistent: `fatal` exactly in HaltedAbnormal (R32), `error_kind` None exactly while `fatal` is
false (R33), and never AddressOutOfRange (R55). -/
abbrev State.ErrorsConsistent (s : State) : Prop :=
  (s.fatal = true ↔ s.runState = .haltedAbnormal) ∧ (s.errorKind = .none ↔ s.fatal = false) ∧
    s.errorKind ≠ .addressOutOfRange

/-- The hidden control state is held only where it has a meaning (R35). -/
abbrev State.ControlConsistent (s : State) : Prop :=
  (s.inputReady = true → s.runState = .blockedOnInput ∨ s.runState = .haltedByUser) ∧
    (s.ready = true → s.runState = .haltedNormal) ∧
    (s.stopRequested = true → s.runState = .running ∨ s.runState = .paused ∨ s.runState = .blockedOnInput) ∧
    (s.runState = .running → s.singleStep = false) ∧ (s.runState = .paused → s.singleStep = true)

/-- OUTPUT is the last word of the output sequence, 0 before the first (R27, R34, R37). -/
abbrev State.OutputConsistent (s : State) : Prop := s.output = s.outputs.getLastD 0

/-- The invariant of a machine that has been reset. -/
abbrev State.Inv (s : State) : Prop :=
  s.mem.wf = true ∧ s.ErrorsConsistent ∧ s.ControlConsistent ∧ s.OutputConsistent ∧
    s.runState ≠ .uninitialized ∧ (s.runState = .noProgramLoaded → s = State.reset)

/-- The states a created machine and its host can come to: the host's operations and the machine's own steps. -/
inductive Reachable : State → Prop where
  | created : Reachable State.created
  | machine {s t : State} : Reachable s → step s = .next t → Reachable t
  | host {s t : State} (op : HostOp) : Reachable s → hostStep op s = .next t → Reachable t

end Sys2Proof.Machine
end

