-- ==== Sys2Proof/Certificates/Slice0/Obligations.lean ====
section
/-!
DEFINITION. The statements for the provers. An obligation whose docstring names D<n> or C<n> rests on the spec's own
choice of that number in 92_eei_decisions.md or 90_conflicts.md, logged under the number given; it is the model's convention, not the
source's word. The premise `s.mem.wf = true` is the model's canonical form of memory (log 1), an invariant stated below.
-/

open Sys2Proof Sys2Proof.Machine

/-! ## Encoding -/

/-- Words the spec writes out and the instructions it says they are (30_encoding.md R74, R76; 95_test_vectors.md). -/
def Obligations.SampleWordsDecodeAsTheSpecWritesThem : Prop :=
  decode 0x0007#16 = .instr (.jnS 0x007) ∧ decode 0x1105#16 = .instr (.load 0x105) ∧
    decode 0x2006#16 = .instr (.store 0x006) ∧ decode 0x3005#16 = .instr (.add 0x005) ∧
    decode 0x4108#16 = .instr (.subt 0x108) ∧ decode 0x5000#16 = .instr .input ∧
    decode 0x6000#16 = .instr .output ∧ decode 0x7000#16 = .instr .halt ∧
    decode 0x8400#16 = .instr (.skipCond 1) ∧ decode 0x8800#16 = .instr (.skipCond 2) ∧
    decode 0x9100#16 = .instr (.jump 0x100) ∧ decode 0xAFFF#16 = .instr .clear ∧
    decode 0xB005#16 = .instr (.addI 0x005) ∧ decode 0xC007#16 = .instr (.jumpI 0x007) ∧
    decode 0xD000#16 = .illegalOpcode 13 ∧ decode 0xFFFF#16 = .illegalOpcode 15

/-- The opcode map: bits 15 to 12 alone select the instruction, bits 11 to 0 are its operand (30_encoding.md section 3,
R74; for SkipCond bits 11 to 10). -/
def Obligations.DecodeFollowsTheOpcodeMap : Prop :=
  ∀ x : BitVec 12,
    decode (instrWord 0 x) = .instr (.jnS x) ∧ decode (instrWord 1 x) = .instr (.load x) ∧
      decode (instrWord 2 x) = .instr (.store x) ∧ decode (instrWord 3 x) = .instr (.add x) ∧
      decode (instrWord 4 x) = .instr (.subt x) ∧ decode (instrWord 5 x) = .instr .input ∧
      decode (instrWord 6 x) = .instr .output ∧ decode (instrWord 7 x) = .instr .halt ∧
      decode (instrWord 8 x) = .instr (.skipCond (x.extractLsb' 10 2)) ∧
      decode (instrWord 9 x) = .instr (.jump x) ∧ decode (instrWord 10 x) = .instr .clear ∧
      decode (instrWord 11 x) = .instr (.addI x) ∧ decode (instrWord 12 x) = .instr (.jumpI x)

/-- Decode and encode agree, for every instruction at every operand, and the other way round up to the ignored bits:
no used bit of a word is dropped (R74, R77). -/
def Obligations.DecodeAndEncodeAgree : Prop :=
  (∀ i : Instr, i.wf = true → decode (encode i) = .instr i) ∧
    ∀ (w : Word) (i : Instr), decode w = .instr i → encode i = w &&& usedBits i

/-- The illegal words are 0xD000 to 0xFFFF, whatever their operand bits (R75). -/
def Obligations.IllegalWordsAreThoseFromD000 : Prop :=
  ∀ w : Word, (∃ op, decode w = .illegalOpcode op) ↔ 0xD000 ≤ w.toNat

/-- R77: every value of the ignored bits decodes to the same instruction with the same behaviour: two machines that
differ only in the ignored bits of the word at the PC take steps that differ only in the word itself, in IR and in
its cell; and the encoder writes the bits as 0. -/
def Obligations.IgnoredBitsHaveNoEffect : Prop :=
  (∀ (s : State) (op : BitVec 4) (u v : BitVec 12), s.mem.wf = true → s.Runs →
    op = 5 ∨ op = 6 ∨ op = 7 ∨ op = 10 ∨ (op = 8 ∧ u.extractLsb' 10 2 = v.extractLsb' 10 2) →
    decode (instrWord op u) = decode (instrWord op v) ∧
      ∃ t, step (s.memWrite s.pc (instrWord op u)) = .next t ∧
        step (s.memWrite s.pc (instrWord op v)) =
          .next { t with ir := instrWord op v, mem := (t.memWrite s.pc (instrWord op v)).mem }) ∧
    (encode .input = 0x5000#16 ∧ encode .output = 0x6000#16 ∧ encode .halt = 0x7000#16 ∧
      encode .clear = 0xA000#16 ∧ ∀ c : BitVec 2, encode (.skipCond c) &&& 0x03FF#16 = 0)

/-- The four ranges of SkipCond words, what each tests, and that condition 11 is found in the execute phase, after the
fetch has completed (30_encoding.md section 4). It rests on the spec's choices 90_conflicts.md C2 (log 27), D2 (log
10), D5 (log 13) and D9 (log 17). -/
def Obligations.SkipCondWordsTestTheAccumulator : Prop :=
  (∀ w : Word,
    (0x8000 ≤ w.toNat ∧ w.toNat ≤ 0x83FF → decode w = .instr (.skipCond 0)) ∧
      (0x8400 ≤ w.toNat ∧ w.toNat ≤ 0x87FF → decode w = .instr (.skipCond 1)) ∧
      (0x8800 ≤ w.toNat ∧ w.toNat ≤ 0x8BFF → decode w = .instr (.skipCond 2)) ∧
      (0x8C00 ≤ w.toNat ∧ w.toNat ≤ 0x8FFF → decode w = .instr (.skipCond 3))) ∧
    (∀ s : State,
      exec (.skipCond 0) s = .next (if s.ac.toInt < 0 then { s with pc := s.pc + 1 } else s) ∧
        exec (.skipCond 1) s = .next (if s.ac.toInt = 0 then { s with pc := s.pc + 1 } else s) ∧
        exec (.skipCond 2) s = .next (if 0 < s.ac.toInt then { s with pc := s.pc + 1 } else s)) ∧
    ∀ s : State, s.Runs → s.pc ≠ 0xFFF#12 →
      0x8C00 ≤ (s.memRead s.pc).toNat ∧ (s.memRead s.pc).toNat ≤ 0x8FFF →
      step s = .next { s with mar := s.pc, ir := s.memRead s.pc, pc := s.pc + 1, fatal := true,
                              errorKind := .illegalCondition, runState := .haltedAbnormal }

/-! ## Memory -/

/-- Every read gives the last word written to its cell, or what was there before (20_memory.md R56, R58). -/
def Obligations.ReadGivesTheLastWrite : Prop :=
  ∀ (s : State) (ws : List (Addr × Word)) (b : Addr), s.mem.wf = true →
    (ws.foldl (fun r c => r.memWrite c.1 c.2) s).memRead b =
      ((ws.reverse.find? fun c => decide (c.1 = b)).map Prod.snd).getD (s.memRead b)

/-- The machine's own steps change a cell only by a Store or a JnS that names it, and to the word those instructions
store (10_state.md R28, 20_memory.md section 3; the stored words of Store and JnS in 41_data_transfer.md and
44_control.md). It rests on the spec's choices D4 (log 12) and D8 (log 16). -/
def Obligations.OnlyStoreAndJnSChangeMemory : Prop :=
  ∀ (s t : State) (b : Addr), s.mem.wf = true → step s = .next t → t.memRead b ≠ s.memRead b →
    s.Runs ∧ s.pc ≠ 0xFFF#12 ∧
      ((s.Fetches (.store b) ∧ t.memRead b = s.ac) ∨
        (s.Fetches (.jnS b) ∧ t.memRead b = (s.pc + 1).setWidth 16))

/-- A stored word is what the very next fetch of its cell sees, and a Store to its own cell completes as a Store
(20_memory.md section 4, 70_reset_and_hazards.md section 5). It rests on the spec's choices D2 (log 10) and D4 (log
12). -/
def Obligations.StoreIsSeenByTheNextFetch : Prop :=
  ∀ (s : State) (x : Addr), s.mem.wf = true → s.Runs → s.Fetches (.store x) → s.pc ≠ 0xFFF#12 →
    ∃ t, step s = .next t ∧ t.Runs ∧ t.memRead x = s.ac ∧ t.pc = s.pc + 1 ∧ t.ir = s.memRead s.pc ∧
      ∀ i, x = s.pc + 1 → x ≠ 0xFFF#12 → decode s.ac = .instr i → step t = exec i (t.atExecute i)

/-! ## The cycle -/

/-- A running machine whose PC word decodes to `i` executes `i` in the state the fetch leaves: IR the word, PC one
further, and for an address-taking opcode MAR the operand and MBR the word there (40_instruction_cycle.md R106, R107).
The set of address-taking opcodes is decision D2 (log 10). -/
def Obligations.StepRunsTheFetchedInstruction : Prop :=
  ∀ (s : State) (i : Instr), s.Runs → s.Fetches i → i.wf = true → s.pc ≠ 0xFFF#12 →
    step s = exec i (s.atExecute i)

/-- An illegal word halts the machine at once: MAR its address, IR the word, MBR and PC as they were, at any address,
the top one included (40_instruction_cycle.md section 2). It rests on the spec's choices D3 (log 11) and D9 (log 17).
-/
def Obligations.IllegalOpcodeHaltsAtDecode : Prop :=
  ∀ s : State, s.Runs → 0xD000 ≤ (s.memRead s.pc).toNat →
    step s = .next { s with mar := s.pc, ir := s.memRead s.pc, fatal := true, errorKind := .illegalOpcode,
                            runState := .haltedAbnormal }

/-- An instruction fetched from address 4095 is not executed: the pre-load is done, PC is 0, and `MaxAddressExceeded`
is raised (40_instruction_cycle.md section 2). It rests on the spec's choices D2 (log 10), D4 (log 12) and D9 (log
17). -/
def Obligations.FetchFromTheTopAddressHalts : Prop :=
  ∀ (s : State) (i : Instr), s.Runs → s.Fetches i → s.pc = 0xFFF#12 →
    step s = .next { s with ir := s.memRead s.pc, mar := (operandAddr i).getD 0xFFF#12,
                            mbr := ((operandAddr i).map s.memRead).getD s.mbr, pc := 0, fatal := true,
                            errorKind := .maxAddressExceeded, runState := .haltedAbnormal }

/-- A cycle that ends in an error raised the first it met, in the order illegal opcode, top address, the instruction's
own error; AC and memory are as before the cycle (60_exceptions.md sections 2 and 3; the exact results are those of
42_arithmetic.md). It rests on the spec's choices D3 (log 11), D4 (log 12), D6 (log 14), D7 (log 15) and D9 (log 17).
-/
def Obligations.EveryErrorHasItsCause : Prop :=
  ∀ s t : State, s.Runs → s.fatal = false → step s = .next t → t.fatal = true →
    t.runState = .haltedAbnormal ∧ t.ac = s.ac ∧ t.mem = s.mem ∧
      ((0xD000 ≤ (s.memRead s.pc).toNat ∧ t.errorKind = .illegalOpcode) ∨
        ((s.memRead s.pc).toNat < 0xD000 ∧ s.pc = 0xFFF#12 ∧ t.errorKind = .maxAddressExceeded) ∨
        (s.pc ≠ 0xFFF#12 ∧ s.Fetches (.skipCond 3) ∧ t.errorKind = .illegalCondition) ∨
        (s.pc ≠ 0xFFF#12 ∧ t.errorKind = .registerOverflow ∧
          ∃ (x : Addr) (n : Int), (n < -32768 ∨ 32767 < n) ∧
            ((s.Fetches (.add x) ∧ n = s.ac.toInt + (s.memRead x).toInt) ∨
              (s.Fetches (.subt x) ∧ n = s.ac.toInt - (s.memRead x).toInt) ∨
              (s.Fetches (.addI x) ∧
                n = s.ac.toInt + (s.memRead ((s.memRead x).extractLsb' 0 12)).toInt))))

/-- The stop transition: HaltedByUser, the request cleared, nothing else changed (70_reset_and_hazards.md section 2;
decision D14, log 21). -/
def Obligations.StopIsTakenBetweenCycles : Prop :=
  ∀ s : State, s.stopRequested = true →
    s.runState = .running ∨ s.runState = .paused ∨ s.runState = .blockedOnInput →
    step s = .next { s with runState := .haltedByUser, stopRequested := false }

/-- The machine has no transition of its own exactly where neither stop nor run is enabled, and its step is never
refused (70_reset_and_hazards.md sections 2 and 3). It rests on the spec's choices D11 (log 18), D13 (log 20), D14
(log 21) and D20 (log 2). That `step` answers a named fault there is the model's choice (log 2). -/
def Obligations.MachineHoldsWhereNothingIsEnabled : Prop :=
  ∀ s : State,
    ((∃ r, step s = .fault r) ↔
      ¬(s.stopRequested = true ∧
          (s.runState = .running ∨ s.runState = .paused ∨ s.runState = .blockedOnInput)) ∧
        ¬(s.stopRequested = false ∧ s.singleStep = false ∧
          (s.runState = .running ∨ (s.runState = .blockedOnInput ∧ s.inputReady = true)))) ∧
      ∀ r, step s ≠ .refused r

/-- The completion of a blocked Input: AC takes INPUT, the latch is cleared, Running again, nothing fetched and nothing
else changed (43_io.md section on the second phase; decision D11, log 18). -/
def Obligations.SuppliedInputCompletes : Prop :=
  ∀ s : State, s.runState = .blockedOnInput → s.inputReady = true → s.singleStep = false →
    s.stopRequested = false →
    step s = .next { s with ac := s.input, inputReady := false, runState := .running }

/-! ## The execute phase of each instruction: result, frame and completion -/

/-- Load: AC takes MBR; everything else is kept (R120). -/
def Obligations.ExecLoadTakesMbr : Prop :=
  ∀ (x : Addr) (s : State), exec (.load x) s = .next { s with ac := s.mbr }

/-- Store: MBR takes AC and so does the cell MAR names; every other cell and register is kept (R121). -/
def Obligations.ExecStoreWritesTheCellAtMar : Prop :=
  ∀ (x : Addr) (s : State), s.mem.wf = true →
    ∃ t, exec (.store x) s = .next t ∧ t.memRead s.mar = s.ac ∧
      (∀ b, b ≠ s.mar → t.memRead b = s.memRead b) ∧ t = { s with mbr := s.ac, mem := t.mem }

/-- Clear: AC is 0; everything else is kept (R122). -/
def Obligations.ExecClearZeroesAc : Prop :=
  ∀ s : State, exec .clear s = .next { s with ac := 0 }

/-- Add: the exact signed sum if it is a legal word, else `RegisterOverflow` with AC kept (42_arithmetic.md). It rests
on the spec's choices D6 (log 14) and D9 (log 17). -/
def Obligations.ExecAddIsExactOrOverflows : Prop :=
  ∀ (x : Addr) (s : State),
    (-32768 ≤ s.ac.toInt + s.mbr.toInt → s.ac.toInt + s.mbr.toInt ≤ 32767 →
      ∃ v : Word, v.toInt = s.ac.toInt + s.mbr.toInt ∧ exec (.add x) s = .next { s with ac := v }) ∧
    (s.ac.toInt + s.mbr.toInt < -32768 ∨ 32767 < s.ac.toInt + s.mbr.toInt →
      exec (.add x) s = .next { s with fatal := true, errorKind := .registerOverflow, runState := .haltedAbnormal })

/-- Subt: the exact signed difference AC − MBR if it is a legal word, else `RegisterOverflow` with AC kept
(42_arithmetic.md). It rests on the spec's choices D6 (log 14) and D9 (log 17). -/
def Obligations.ExecSubtIsExactOrOverflows : Prop :=
  ∀ (x : Addr) (s : State),
    (-32768 ≤ s.ac.toInt - s.mbr.toInt → s.ac.toInt - s.mbr.toInt ≤ 32767 →
      ∃ v : Word, v.toInt = s.ac.toInt - s.mbr.toInt ∧ exec (.subt x) s = .next { s with ac := v }) ∧
    (s.ac.toInt - s.mbr.toInt < -32768 ∨ 32767 < s.ac.toInt - s.mbr.toInt →
      exec (.subt x) s = .next { s with fatal := true, errorKind := .registerOverflow, runState := .haltedAbnormal })

/-- AddI: MAR takes the low 12 bits of MBR, MBR the word there, and that word is added as by Add; on overflow MAR and
MBR stay changed (42_arithmetic.md). It rests on the spec's choices D6 (log 14), D7 (log 15) and D9 (log 17). -/
def Obligations.ExecAddIAddsThroughThePointer : Prop :=
  ∀ (x : Addr) (s : State) (p : Addr) (w : Word), p = s.mbr.extractLsb' 0 12 → w = s.memRead p →
    (-32768 ≤ s.ac.toInt + w.toInt → s.ac.toInt + w.toInt ≤ 32767 →
      ∃ v : Word, v.toInt = s.ac.toInt + w.toInt ∧
        exec (.addI x) s = .next { s with mar := p, mbr := w, ac := v }) ∧
    (s.ac.toInt + w.toInt < -32768 ∨ 32767 < s.ac.toInt + w.toInt →
      exec (.addI x) s = .next { s with mar := p, mbr := w, fatal := true, errorKind := .registerOverflow,
                                        runState := .haltedAbnormal })

/-- Input, first phase: BlockedOnInput; AC and everything else kept (R140). -/
def Obligations.ExecInputBlocks : Prop :=
  ∀ s : State, exec .input s = .next { s with runState := .blockedOnInput }

/-- Output: OUTPUT takes AC and AC is appended to the output sequence; everything else is kept (R143). -/
def Obligations.ExecOutputEmitsAc : Prop :=
  ∀ s : State, exec .output s = .next { s with output := s.ac, outputs := s.outputs ++ [s.ac] }

/-- JnS: the cell X takes PC zero-extended, PC becomes X + 1 in 12 bits; every other cell and register is kept (R150). That AC
and MBR are kept is decision D8 (log 16), the masked PC decision D5 (log 13). -/
def Obligations.ExecJnSStoresTheReturnAddress : Prop :=
  ∀ (x : Addr) (s : State), s.mem.wf = true →
    ∃ t, exec (.jnS x) s = .next t ∧ t.memRead x = s.pc.setWidth 16 ∧
      (∀ b, b ≠ x → t.memRead b = s.memRead b) ∧ t = { s with pc := x + 1, mem := t.mem }

/-- Halt: HaltedNormal, or HaltedAbnormal if `fatal` was set; everything else is kept (44_control.md). It rests on the
spec's choice 90_conflicts.md C9 (log 17). -/
def Obligations.ExecHaltEndsTheRun : Prop :=
  ∀ s : State,
    (s.fatal = false → exec .halt s = .next { s with runState := .haltedNormal }) ∧
      (s.fatal = true → exec .halt s = .next { s with runState := .haltedAbnormal })

/-- SkipCond: PC one further in 12 bits exactly when the condition holds of AC read signed; condition 11 raises
`IllegalCondition`; everything else is kept, and exactly one of the three tests holds of any AC (44_control.md). It
rests on the spec's choices 90_conflicts.md C2 (log 27), D5 (log 13) and D9 (log 17). -/
def Obligations.ExecSkipCondSkipsOnTheSignOfAc : Prop :=
  ∀ s : State,
    (s.ac.toInt < 0 → exec (.skipCond 0) s = .next { s with pc := s.pc + 1 } ∧
      exec (.skipCond 1) s = .next s ∧ exec (.skipCond 2) s = .next s) ∧
    (s.ac = 0 → exec (.skipCond 1) s = .next { s with pc := s.pc + 1 } ∧
      exec (.skipCond 0) s = .next s ∧ exec (.skipCond 2) s = .next s) ∧
    (0 < s.ac.toInt → exec (.skipCond 2) s = .next { s with pc := s.pc + 1 } ∧
      exec (.skipCond 0) s = .next s ∧ exec (.skipCond 1) s = .next s) ∧
    exec (.skipCond 3) s = .next { s with fatal := true, errorKind := .illegalCondition, runState := .haltedAbnormal } ∧
    ∀ c : BitVec 2, c = 0 ∨ c = 1 ∨ c = 2 ∨ c = 3

/-- Jump: PC takes X; everything else is kept (R153). -/
def Obligations.ExecJumpSetsPc : Prop :=
  ∀ (x : Addr) (s : State), exec (.jump x) s = .next { s with pc := x }

/-- JumpI: PC takes the low 12 bits of MBR; everything else is kept (R154). The dropped bits are decision D5 (log 13); that there
is one level of indirection is the choice of 90_conflicts.md C3 (log 27). -/
def Obligations.ExecJumpISetsPcFromMbr : Prop :=
  ∀ (x : Addr) (s : State), exec (.jumpI x) s = .next { s with pc := s.mbr.extractLsb' 0 12 }

/-! ## The whole cycle of each instruction, from the word in memory -/

/-- R120: the cycle of Load X, from its word; at 0xFFF AC is not loaded. -/
def Obligations.CycleOfLoad : Prop :=
  ∀ (s : State) (x : Addr), s.Runs → s.memRead s.pc = instrWord 1 x →
    (s.pc ≠ 0xFFF#12 →
      step s = .next { s with ac := s.memRead x, ir := instrWord 1 x, mar := x, mbr := s.memRead x,
                              pc := s.pc + 1 }) ∧
    (s.pc = 0xFFF#12 → ∃ t, step s = .next t ∧ t.ac = s.ac ∧ t.errorKind = .maxAddressExceeded ∧
      t.fatal = true ∧ t.runState = .haltedAbnormal)

/-- R121: the cycle of Store X, from its word; at 0xFFF nothing is stored. -/
def Obligations.CycleOfStore : Prop :=
  ∀ (s : State) (x : Addr), s.mem.wf = true → s.Runs → s.memRead s.pc = instrWord 2 x →
    (s.pc ≠ 0xFFF#12 →
      ∃ t, step s = .next t ∧ t.memRead x = s.ac ∧ (∀ b, b ≠ x → t.memRead b = s.memRead b) ∧
        t = { s with ir := instrWord 2 x, mar := x, mbr := s.ac, pc := s.pc + 1, mem := t.mem }) ∧
    (s.pc = 0xFFF#12 → ∃ t, step s = .next t ∧ t.mem = s.mem ∧ t.errorKind = .maxAddressExceeded ∧
      t.fatal = true ∧ t.runState = .haltedAbnormal)

/-- R122: Clear is assembled as 0xA000; its cycle, from any of its words; at 0xFFF AC is not cleared. -/
def Obligations.CycleOfClear : Prop :=
  encode .clear = 0xA000#16 ∧ ∀ (s : State) (u : BitVec 12), s.Runs → s.memRead s.pc = instrWord 10 u →
    (s.pc ≠ 0xFFF#12 →
      step s = .next { s with ac := 0, ir := instrWord 10 u, mar := s.pc, pc := s.pc + 1 }) ∧
    (s.pc = 0xFFF#12 → ∃ t, step s = .next t ∧ t.ac = s.ac ∧ t.errorKind = .maxAddressExceeded ∧
      t.fatal = true ∧ t.runState = .haltedAbnormal)

/-- Input is assembled as 0x5000; its cycle, from any of its words: the machine blocks, and has no further step while
no word is supplied and no stop requested; at 0xFFF it does not block (43_io.md). It rests on the spec's choices D2
(log 10), D4 (log 12), D9 (log 17) and D20 (log 2). That `step` answers a named fault there is the model's choice (log
2). -/
def Obligations.CycleOfInput : Prop :=
  encode .input = 0x5000#16 ∧ ∀ (s : State) (u : BitVec 12), s.Runs → s.memRead s.pc = instrWord 5 u →
    (s.pc ≠ 0xFFF#12 →
      step s = .next { s with ir := instrWord 5 u, mar := s.pc, pc := s.pc + 1, runState := .blockedOnInput } ∧
        (s.inputReady = false →
          step { s with ir := instrWord 5 u, mar := s.pc, pc := s.pc + 1, runState := .blockedOnInput } =
            .fault .holdAwaitingInput)) ∧
    (s.pc = 0xFFF#12 → ∃ t, step s = .next t ∧ t.runState = .haltedAbnormal ∧
      t.errorKind = .maxAddressExceeded ∧ t.fatal = true)

/-- Output is assembled as 0x6000; its cycle, from any of its words; at 0xFFF nothing is output (43_io.md; MAR and MBR
by 40_instruction_cycle.md R104). It rests on the spec's choices D2 (log 10), D4 (log 12) and D9 (log 17). -/
def Obligations.CycleOfOutput : Prop :=
  encode .output = 0x6000#16 ∧ ∀ (s : State) (u : BitVec 12), s.Runs → s.memRead s.pc = instrWord 6 u →
    (s.pc ≠ 0xFFF#12 →
      step s = .next { s with output := s.ac, outputs := s.outputs ++ [s.ac], ir := instrWord 6 u, mar := s.pc,
                              pc := s.pc + 1 }) ∧
    (s.pc = 0xFFF#12 → ∃ t, step s = .next t ∧ t.output = s.output ∧ t.outputs = s.outputs ∧
      t.errorKind = .maxAddressExceeded ∧ t.fatal = true ∧ t.runState = .haltedAbnormal)

/-- The cycle of Add X below the top address, from its word (42_arithmetic.md). It rests on the spec's choices D2 (log
10), D6 (log 14) and D9 (log 17). -/
def Obligations.CycleOfAdd : Prop :=
  ∀ (s : State) (x : Addr) (n : Int), s.Runs → s.memRead s.pc = instrWord 3 x → s.pc ≠ 0xFFF#12 →
    n = s.ac.toInt + (s.memRead x).toInt →
    (-32768 ≤ n ∧ n ≤ 32767 → ∃ v : Word, v.toInt = n ∧
      step s = .next { s with ac := v, ir := instrWord 3 x, mar := x, mbr := s.memRead x, pc := s.pc + 1 }) ∧
    (¬(-32768 ≤ n ∧ n ≤ 32767) →
      step s = .next { s with ir := instrWord 3 x, mar := x, mbr := s.memRead x, pc := s.pc + 1, fatal := true,
                              errorKind := .registerOverflow, runState := .haltedAbnormal })

/-- The cycle of Subt X below the top address, from its word (42_arithmetic.md). It rests on the spec's choices D2
(log 10), D6 (log 14) and D9 (log 17). -/
def Obligations.CycleOfSubt : Prop :=
  ∀ (s : State) (x : Addr) (n : Int), s.Runs → s.memRead s.pc = instrWord 4 x → s.pc ≠ 0xFFF#12 →
    n = s.ac.toInt - (s.memRead x).toInt →
    (-32768 ≤ n ∧ n ≤ 32767 → ∃ v : Word, v.toInt = n ∧
      step s = .next { s with ac := v, ir := instrWord 4 x, mar := x, mbr := s.memRead x, pc := s.pc + 1 }) ∧
    (¬(-32768 ≤ n ∧ n ≤ 32767) →
      step s = .next { s with ir := instrWord 4 x, mar := x, mbr := s.memRead x, pc := s.pc + 1, fatal := true,
                              errorKind := .registerOverflow, runState := .haltedAbnormal })

/-- The cycle of AddI X below the top address, from its word: the operand is M[M[X][11:0]], and MAR and MBR hold it
even when the sum overflows (42_arithmetic.md, 00_scope.md section 5). It rests on the spec's choices D2 (log 10), D6
(log 14), D7 (log 15) and D9 (log 17). -/
def Obligations.CycleOfAddI : Prop :=
  ∀ (s : State) (x p : Addr) (n : Int), s.Runs → s.memRead s.pc = instrWord 11 x → s.pc ≠ 0xFFF#12 →
    p = (s.memRead x).extractLsb' 0 12 → n = s.ac.toInt + (s.memRead p).toInt →
    (-32768 ≤ n ∧ n ≤ 32767 → ∃ v : Word, v.toInt = n ∧
      step s = .next { s with ac := v, ir := instrWord 11 x, mar := p, mbr := s.memRead p, pc := s.pc + 1 }) ∧
    (¬(-32768 ≤ n ∧ n ≤ 32767) →
      step s = .next { s with ir := instrWord 11 x, mar := p, mbr := s.memRead p, pc := s.pc + 1, fatal := true,
                              errorKind := .registerOverflow, runState := .haltedAbnormal })

/-- The cycle of JnS X below the top address, from its word: M[X] takes the return address, MBR what M[X] held (R150; decisions D2,
D5 and D8, logs 10, 13 and 16). -/
def Obligations.CycleOfJnS : Prop :=
  ∀ (s : State) (x : Addr), s.mem.wf = true → s.Runs → s.memRead s.pc = instrWord 0 x → s.pc ≠ 0xFFF#12 →
    ∃ t, step s = .next t ∧ t.memRead x = (s.pc + 1).setWidth 16 ∧
      (∀ b, b ≠ x → t.memRead b = s.memRead b) ∧
      t = { s with ir := instrWord 0 x, mar := x, mbr := s.memRead x, pc := x + 1, mem := t.mem }

/-- The cycle of Halt below the top address, from any of its words; the machine then has no step, and a halted run
without `ready` is over (44_control.md, 70_reset_and_hazards.md section 3). It rests on the spec's choices D2 (log 10)
and D20 (log 2). That `step` answers a named fault there is the model's choice (log 2). -/
def Obligations.CycleOfHalt : Prop :=
  ∀ (s : State) (u : BitVec 12), s.Runs → s.memRead s.pc = instrWord 7 u → s.pc ≠ 0xFFF#12 → s.fatal = false →
    step s = .next { s with ir := instrWord 7 u, mar := s.pc, pc := s.pc + 1, runState := .haltedNormal } ∧
      (s.ready = false →
        step { s with ir := instrWord 7 u, mar := s.pc, pc := s.pc + 1, runState := .haltedNormal } =
          .fault .endHaltedNormal)

/-- The cycle of SkipCond below the top address, from any word of a legal condition: PC is two further (12 bits) if
the condition holds, else one (44_control.md). It rests on the spec's choices 90_conflicts.md C2 (log 27), D2 (log 10)
and D5 (log 13). -/
def Obligations.CycleOfSkipCond : Prop :=
  ∀ (s : State) (c : BitVec 2) (u : BitVec 10), s.Runs →
    s.memRead s.pc = instrWord 8 (condOperand c u) → s.pc ≠ 0xFFF#12 → c ≠ 3 →
    ∃ t, step s = .next t ∧
      t = { s with ir := instrWord 8 (condOperand c u), mar := s.pc, pc := t.pc } ∧
      ((c = 0 ∧ s.ac.toInt < 0) ∨ (c = 1 ∧ s.ac = 0) ∨ (c = 2 ∧ 0 < s.ac.toInt) → t.pc = s.pc + 2) ∧
      (¬((c = 0 ∧ s.ac.toInt < 0) ∨ (c = 1 ∧ s.ac = 0) ∨ (c = 2 ∧ 0 < s.ac.toInt)) → t.pc = s.pc + 1)

/-- The cycle of Jump X below the top address, from its word (R153; the pre-load is decision D2, log 10). -/
def Obligations.CycleOfJump : Prop :=
  ∀ (s : State) (x : Addr), s.Runs → s.memRead s.pc = instrWord 9 x → s.pc ≠ 0xFFF#12 →
    step s = .next { s with ir := instrWord 9 x, mar := x, mbr := s.memRead x, pc := x }

/-- The cycle of JumpI X below the top address, from its word: PC takes the low 12 bits of M[X] (44_control.md). It
rests on the spec's choices 90_conflicts.md C3 (log 27), D2 (log 10) and D5 (log 13). -/
def Obligations.CycleOfJumpI : Prop :=
  ∀ (s : State) (x : Addr), s.Runs → s.memRead s.pc = instrWord 12 x → s.pc ≠ 0xFFF#12 →
    step s = .next { s with ir := instrWord 12 x, mar := x, mbr := s.memRead x,
                            pc := (s.memRead x).extractLsb' 0 12 }

/-- JnS is the call and JumpI the return: after `JnS X` at a, the machine is at X + 1 in 12 bits, and from any running
state whose cell X still holds what the call stored, `JumpI X` continues at a + 1 (44_control.md). It rests on the
spec's choices 90_conflicts.md C3 (log 27), D2 (log 10), D5 (log 13) and D8 (log 16). -/
def Obligations.JumpIReturnsFromJnS : Prop :=
  ∀ (s u v : State) (x : Addr), s.mem.wf = true → s.Runs → s.Fetches (.jnS x) → s.pc ≠ 0xFFF#12 →
    step s = .next u →
    u.pc = x + 1 ∧
      (v.Runs → v.Fetches (.jumpI x) → v.pc ≠ 0xFFF#12 → v.memRead x = u.memRead x →
        ∃ w, step v = .next w ∧ w.pc = s.pc + 1)

/-! ## Rules about the whole machine -/

/-- R26: INPUT is written by `supply_input` (and zeroed by `reset`) and by nothing else, and nothing but the completion of an Input
reads it: a step or a single-step call from a state that is not blocked does the same whatever INPUT holds. -/
def Obligations.InputRegisterIsTheHosts : Prop :=
  (∀ (i : Instr) (s t : State), exec i s = .next t → t.input = s.input) ∧
    (∀ s t : State, step s = .next t → t.input = s.input) ∧
    (∀ (op : HostOp) (s t : State), hostStep op s = .next t →
      (op = .reset ∧ t.input = 0) ∨ (∃ v, op = .supplyInput v ∧ t.input = v) ∨
        ((∀ v, op ≠ .supplyInput v) ∧ op ≠ .reset ∧ t.input = s.input)) ∧
    ∀ (s t : State) (v : Word), s.runState ≠ .blockedOnInput →
      (step s = .next t → step { s with input := v } = .next { t with input := v }) ∧
        (hostStep .step s = .next t → hostStep .step { s with input := v } = .next { t with input := v })

/-- R27: OUTPUT is written by Output alone (and zeroed by `reset`), no instruction reads it, and the host reads it. -/
def Obligations.OutputRegisterIsNeverRead : Prop :=
  (∀ s t : State, step s = .next t →
    t.output = s.output ∨ (s.Runs ∧ s.Fetches .output ∧ t.output = s.ac)) ∧
    (∀ (op : HostOp) (s t : State), hostStep op s = .next t →
      t.output = s.output ∨ (op = .reset ∧ t.output = 0) ∨
        (op = .step ∧ s.Fetches .output ∧ t.output = s.ac)) ∧
    (∀ (s t : State) (v : Word), step s = .next t →
      ∃ v', step { s with output := v } = .next { t with output := v' }) ∧
    ∀ s : State, s.runState ≠ .uninitialized → hostRead .output s = .ok (.word s.output)

/-- The output sequence only grows: an Output appends AC, by a step or a single-step call, and no other transition but
`reset` changes it (10_state.md section 5, 43_io.md). It rests on the spec's choices D4 (log 12), D13 (log 20) and D24
(log 24). -/
def Obligations.OutputSequenceOnlyGrows : Prop :=
  (∀ s t : State, step s = .next t →
    t.outputs = s.outputs ∨
      (s.Runs ∧ s.Fetches .output ∧ s.pc ≠ 0xFFF#12 ∧ t.outputs = s.outputs ++ [s.ac] ∧ t.output = s.ac)) ∧
    ∀ (op : HostOp) (s t : State), op ≠ .reset → hostStep op s = .next t →
      t.outputs = s.outputs ∨
        (op = .step ∧ s.runState = .paused ∧ s.Fetches .output ∧ s.pc ≠ 0xFFF#12 ∧
          t.outputs = s.outputs ++ [s.ac] ∧ t.output = s.ac)

/-- No return from an error: in HaltedAbnormal the machine has no step and only `reset` is admitted, and nothing but
`reset` clears `fatal` (60_exceptions.md section 5). It rests on the spec's choice D20 (log 2). That `step` answers a
named fault there is the model's choice (log 2). -/
def Obligations.ErrorsAreFinal : Prop :=
  (∀ s : State, s.runState = .haltedAbnormal →
    step s = .fault .endHaltedAbnormal ∧
      (∀ op : HostOp, op ≠ .reset → hostStep op s = .refused (.notAdmitted op)) ∧
      ∃ t, hostStep .reset s = .next t ∧ t.fatal = false) ∧
    (∀ s t : State, s.fatal = true → step s = .next t → t.fatal = true) ∧
    ∀ (op : HostOp) (s t : State), s.fatal = true → op ≠ .reset → hostStep op s = .next t → t.fatal = true

/-- No transition of the machine or the host raises AddressOutOfRange (20_memory.md R55; decision D23, log 7). -/
def Obligations.AddressOutOfRangeIsNeverRaised : Prop :=
  (∀ s t : State, s.errorKind ≠ .addressOutOfRange → step s = .next t → t.errorKind ≠ .addressOutOfRange) ∧
    ∀ (op : HostOp) (s t : State), s.errorKind ≠ .addressOutOfRange → hostStep op s = .next t →
      t.errorKind ≠ .addressOutOfRange

/-! ## The host's operations -/

/-- `reset` from any state leaves registers, memory and error flags 0 and NoProgramLoaded (10_state.md section 6); that it also
empties the output sequence and clears the hidden control state is decision D16 (log 22). -/
def Obligations.ResetLeavesTheResetState : Prop :=
  (∀ s : State, hostStep .reset s = .next State.reset) ∧
    State.reset.ac = 0 ∧ State.reset.ir = 0 ∧ State.reset.mar = 0 ∧ State.reset.mbr = 0 ∧ State.reset.pc = 0 ∧
    State.reset.input = 0 ∧ State.reset.output = 0 ∧ (∀ a, State.reset.memRead a = 0) ∧
    State.reset.runState = .noProgramLoaded ∧ State.reset.fatal = false ∧ State.reset.errorKind = .none ∧
    State.reset.outputs = [] ∧ State.reset.inputReady = false ∧ State.reset.stopRequested = false ∧
    State.reset.ready = false ∧ State.reset.singleStep = false

/-- `load` puts every word of the program at its address, leaves every other cell, sets PC to the start address, and
makes the machine ready (70_reset_and_hazards.md section 1). It rests on the spec's choices D12 (log 19) and D15 (log
6). That a load of an empty program or with another start is refused is the model's choice (log 6). -/
def Obligations.LoadPlacesTheProgram : Prop :=
  ∀ (s : State) (p : Program) (start : Nat), s.mem.wf = true → s.runState = .noProgramLoaded →
    p.wf start = true →
    ∃ t, hostStep (.load p start) s = .next t ∧ (∀ c ∈ p, t.memRead (BitVec.ofNat 12 c.1) = c.2) ∧
      (∀ b : Addr, (∀ c ∈ p, c.1 ≠ b.toNat) → t.memRead b = s.memRead b) ∧ t.pc.toNat = start ∧
      t = { s with mem := t.mem, pc := t.pc, ready := true, runState := .haltedNormal }

/-- The operations admitted in each run state; any other is refused and so changes nothing (70_reset_and_hazards.md
section 7). It rests on the spec's choices D11 (log 18), D12 (log 19), D13 (log 20), D14 (log 21), D15 (log 6) and D16
(log 22). That a load of an empty program or with another start is refused is the model's choice (log 6). -/
def Obligations.HostOperationsAdmittedByRunState : Prop :=
  ∀ (op : HostOp) (s : State),
    let isAdmitted : Prop := match op with
      | .reset => True
      | .load p start => s.runState = .noProgramLoaded ∧ (∀ c ∈ p, c.1 < 4096) ∧ (p.map Prod.fst).Nodup ∧
          p.head?.map Prod.fst = some start
      | .start _ => s.runState = .haltedNormal ∧ s.ready = true
      | .step => s.singleStep = true ∧ s.stopRequested = false ∧
          (s.runState = .paused ∨ (s.runState = .blockedOnInput ∧ s.inputReady = true))
      | .resume => s.runState = .paused
      | .requestStop => s.runState = .running ∨ s.runState = .paused ∨ s.runState = .blockedOnInput
      | .supplyInput _ => s.runState = .blockedOnInput ∧ s.inputReady = false
    (isAdmitted → ∃ t, hostStep op s = .next t) ∧ (¬isAdmitted → hostStep op s = .refused (.notAdmitted op))

/-- A single-step call does what one step of the continuously running machine does and pauses again if it still runs,
or completes a blocked Input and pauses (70_reset_and_hazards.md section 2). It rests on the spec's choices D11 (log
18) and D13 (log 20). -/
def Obligations.SingleStepIsOneCycle : Prop :=
  (∀ s : State, s.runState = .paused → s.singleStep = true → s.stopRequested = false →
    ∃ t, step { s with runState := .running, singleStep := false } = .next t ∧
      hostStep .step s =
        .next { t with singleStep := true,
                       runState := if t.runState = .running then .paused else t.runState }) ∧
    ∀ s : State, s.runState = .blockedOnInput → s.inputReady = true → s.singleStep = true →
      s.stopRequested = false →
      hostStep .step s = .next { s with ac := s.input, inputReady := false, runState := .paused }

/-- The effects of `start`, `resume`, `request_stop` and `supply_input` where they are admitted (70_reset_and_hazards.md section 2,
43_io.md; decisions D11 to D14, logs 18 to 21). -/
def Obligations.HostControlEffects : Prop :=
  ∀ s : State,
    (s.runState = .haltedNormal → s.ready = true →
      hostStep (.start false) s =
          .next { s with ready := false, stopRequested := false, singleStep := false, runState := .running } ∧
        hostStep (.start true) s =
          .next { s with ready := false, stopRequested := false, singleStep := true, runState := .paused }) ∧
    (s.runState = .paused → hostStep .resume s = .next { s with singleStep := false, runState := .running }) ∧
    (s.runState = .running ∨ s.runState = .paused ∨ s.runState = .blockedOnInput →
      hostStep .requestStop s = .next { s with stopRequested := true }) ∧
    (s.runState = .blockedOnInput → s.inputReady = false → ∀ v : Word,
      hostStep (.supplyInput v) s = .next { s with input := v, inputReady := true })

/-- reset, load and start bring any state to a running machine whose PC holds the program's first word, and its first
step is that word's instruction (70_reset_and_hazards.md section 4). It rests on the spec's choices D2 (log 10), D4
(log 12), D12 (log 19), D15 (log 6) and D16 (log 22). -/
def Obligations.BootRunsTheFirstWord : Prop :=
  ∀ (s : State) (p : Program) (start : Nat), p.wf start = true →
    ∃ r a b, hostStep .reset s = .next r ∧ hostStep (.load p start) r = .next a ∧
      hostStep (.start false) a = .next b ∧ b.Runs ∧ b.pc.toNat = start ∧
      ∀ w, p.head? = some (start, w) →
        b.memRead b.pc = w ∧
          ∀ i, decode w = .instr i → start ≠ 4095 → step b = exec i (b.atExecute i)

/-! ## Invariants -/

/-- The reset state meets the invariant (10_state.md section 6; canonical memory is the model's form, log 1). It rests on
the spec's choice D16 (log 22). -/
def Obligations.ResetMeetsTheInvariant : Prop := State.reset.Inv

/-- Every step of the machine keeps the canonical memory, which is the model's form of the spec's array of cells
(log 1). -/
def Obligations.StepKeepsMemoryCanonical : Prop :=
  ∀ s t : State, s.mem.wf = true → step s = .next t → t.mem.wf = true

/-- Every step of the machine keeps the invariant: canonical memory (the model's form, log 1), `fatal` exactly in
HaltedAbnormal and with an error kind, hidden control state only where it has a meaning, OUTPUT the last word of the
output sequence. It rests on the spec's choices D9 (log 17), D11 (log 18), D12 (log 19), D13 (log 20), D14 (log 21),
D15 (log 6), D16 (log 22) and D23 (log 7). -/
def Obligations.StepKeepsTheInvariant : Prop :=
  ∀ s t : State, s.Inv → step s = .next t → t.Inv

/-- Every operation of the host keeps the invariant (canonical memory is the model's form, log 1). It rests on the
spec's choices D9 (log 17), D11 (log 18), D12 (log 19), D13 (log 20), D14 (log 21), D15 (log 6), D16 (log 22) and D23
(log 7). -/
def Obligations.HostOperationsKeepTheInvariant : Prop :=
  ∀ (op : HostOp) (s t : State), s.Inv → hostStep op s = .next t → t.Inv

/-- Whatever the host does and whatever program runs, the machine is either the created one, before its first reset,
or meets the invariant (canonical memory is the model's form, log 1). It rests on the spec's choices D9 (log 17), D11
(log 18), D12 (log 19), D13 (log 20), D14 (log 21), D15 (log 6), D16 (log 22), D23 (log 7) and D17 (log 4). -/
def Obligations.ReachableStatesMeetTheInvariant : Prop :=
  ∀ s : State, Reachable s → s = State.created ∨ s.Inv
end

