-- ==== Sys2Proof/Laws/Decode.lean ====
section
/-!
SUPPORT. The fields of an instruction word and the decoder on a word given by its fields.
-/

namespace Sys2Proof

theorem getLsbD_instrWord (op : BitVec 4) (x : BitVec 12) (i : Nat) :
    (instrWord op x).getLsbD i = if i < 12 then x.getLsbD i else op.getLsbD (i - 12) :=
  BitVec.getLsbD_append

theorem getLsbD_condOperand (c : BitVec 2) (u : BitVec 10) (i : Nat) :
    (condOperand c u).getLsbD i = if i < 10 then u.getLsbD i else c.getLsbD (i - 10) :=
  BitVec.getLsbD_append

theorem opField_instrWord (op : BitVec 4) (x : BitVec 12) : opField (instrWord op x) = op := by
  apply BitVec.eq_of_getLsbD_eq
  intro i hi
  simp [opField, getLsbD_instrWord, hi]

theorem operandField_instrWord (op : BitVec 4) (x : BitVec 12) : operandField (instrWord op x) = x := by
  apply BitVec.eq_of_getLsbD_eq
  intro i hi
  simp [operandField, getLsbD_instrWord, hi]

theorem condField_instrWord (op : BitVec 4) (c : BitVec 2) (u : BitVec 10) :
    condField (instrWord op (condOperand c u)) = c := by
  apply BitVec.eq_of_getLsbD_eq
  intro i hi
  have h : 10 + i < 12 := by omega
  have hx : (condOperand c u).getLsbD (10 + i) = c.getLsbD i := by simp [getLsbD_condOperand]
  simp only [condField, BitVec.getLsbD_extractLsb', getLsbD_instrWord, hi, h, if_true, decide_true, Bool.true_and, hx]

/-- Every word is its opcode field over its operand field. -/
theorem instrWord_fields (w : Word) : instrWord (opField w) (operandField w) = w := by
  apply BitVec.eq_of_getLsbD_eq
  intro i hi
  rw [getLsbD_instrWord]
  split_ifs with h
  · simp [operandField, h]
  · have h1 : i - 12 < 4 := by omega
    have h2 : 12 + (i - 12) = i := by omega
    simp [opField, h1, h2]

/-- A SkipCond operand field is its condition over its ten low bits. -/
theorem condOperand_fields (x : BitVec 12) :
    condOperand (x.extractLsb' 10 2) (x.extractLsb' 0 10) = x := by
  apply BitVec.eq_of_getLsbD_eq
  intro i hi
  rw [getLsbD_condOperand]
  split_ifs with h
  · simp [h]
  · have h1 : i - 10 < 2 := by omega
    have h2 : 10 + (i - 10) = i := by omega
    simp [h1, h2]

/-- The decoder refuses exactly the opcodes above 12 (R75). -/
theorem decode_illegal_iff (w : Word) :
    (∃ op, decode w = .illegalOpcode op) ↔ 12 < (opField w).toNat := by
  unfold decode
  split <;> simp_all
  omega

end Sys2Proof
end

