-- ==== Sys2Proof/Laws/Memory.lean ====
section
/-!
SUPPORT. The laws of the canonical memory: what a read gives after a write, that every write keeps the canonical
form, and that canonical memories with equal reads are equal.
-/

namespace Sys2Proof.Machine

theorem Memory.wf_cons {a : Nat} {w : Word} {m : Memory} :
    Memory.wf ((a, w) :: m) = true ↔
      a < 4096 ∧ w ≠ 0#16 ∧ (∀ c ∈ m, a < c.1) ∧ Memory.wf m = true := by
  simp only [Memory.wf, Bool.and_eq_true, decide_eq_true_eq, List.all_eq_true, and_assoc]
  simp only [Config.memWords]

/-- Below every listed address a memory reads 0. -/
theorem Memory.read_eq_zero_of_lt {m : Memory} {a : Nat} (h : ∀ c ∈ m, a < c.1) : Memory.read m a = 0#16 := by
  induction m with
  | nil => rfl
  | cons c m ih =>
    obtain ⟨b, w⟩ := c
    have hab : a < b := h (b, w) (by simp)
    simp only [Memory.read, Nat.ne_of_lt hab, if_false]
    exact ih fun c hc => h c (by simp [hc])

/-- What a read gives after a write, in a canonical memory. -/
theorem Memory.read_write {m : Memory} (hm : m.wf = true) (a b : Nat) (v : Word) :
    (m.write a v).read b = if b = a then v else m.read b := by
  induction m with
  | nil =>
    by_cases hv : v = 0#16 <;> by_cases hb : b = a <;> simp [Memory.write, Memory.read, hv, hb]
  | cons c m ih =>
    obtain ⟨d, w⟩ := c
    obtain ⟨_, _, hlt, hwf⟩ := Memory.wf_cons.mp hm
    have hd : Memory.read m d = 0#16 := Memory.read_eq_zero_of_lt hlt
    simp only [Memory.write]
    rcases lt_trichotomy a d with h | h | h
    · have ha : Memory.read m a = 0#16 := Memory.read_eq_zero_of_lt fun c hc => h.trans (hlt c hc)
      by_cases hv : v = 0#16 <;> by_cases hb : b = a <;>
        simp [h, hv, hb, Memory.read, Nat.ne_of_lt h, ha]
    · subst h
      by_cases hv : v = 0#16 <;> by_cases hb : b = a <;> simp [hv, hb, Memory.read, hd]
    · have hne : ¬ a < d := Nat.lt_asymm h
      have hne' : a ≠ d := Nat.ne_of_gt h
      have := ih hwf
      by_cases hb : b = d
      · subst hb
        simp [hne, hne', hne'.symm, Memory.read]
      · simp [hne, hne', hb, Memory.read, this]

/-- The addresses a write lists: those listed before, and the one written. -/
theorem Memory.mem_write {m : Memory} {a : Nat} {v : Word} {c : Nat × Word} (h : c ∈ m.write a v) :
    c.1 = a ∨ c ∈ m := by
  induction m with
  | nil =>
    by_cases hv : v = 0#16
    · simp [Memory.write, hv] at h
    · simp only [Memory.write, hv, if_false, List.mem_singleton] at h
      exact .inl (by rw [h])
  | cons d m ih =>
    obtain ⟨b, w⟩ := d
    simp only [Memory.write] at h
    split_ifs at h
    · exact .inr h
    · rcases List.mem_cons.mp h with rfl | h
      · exact .inl rfl
      · exact .inr h
    · exact .inr (List.mem_cons_of_mem _ h)
    · rcases List.mem_cons.mp h with rfl | h
      · exact .inl rfl
      · exact .inr (List.mem_cons_of_mem _ h)
    · rcases List.mem_cons.mp h with rfl | h
      · exact .inr List.mem_cons_self
      · exact (ih h).imp_right (List.mem_cons_of_mem _)

/-- Every write to an address of the machine keeps the canonical form. -/
theorem Memory.write_wf {m : Memory} (hm : m.wf = true) {a : Nat} (ha : a < 4096) (v : Word) :
    (m.write a v).wf = true := by
  induction m with
  | nil => by_cases hv : v = 0#16 <;> simp [Memory.write, Memory.wf, Config.memWords, hv, ha]
  | cons d m ih =>
    obtain ⟨b, w⟩ := d
    obtain ⟨hb, hw, hlt, hwf⟩ := Memory.wf_cons.mp hm
    simp only [Memory.write]
    split_ifs with h1 h2 h3 h4
    · exact hm
    · refine Memory.wf_cons.mpr ⟨ha, h2, fun c hc => ?_, hm⟩
      rcases List.mem_cons.mp hc with rfl | hc
      · exact h1
      · exact h1.trans (hlt c hc)
    · exact hwf
    · exact Memory.wf_cons.mpr ⟨ha, h4, h3 ▸ hlt, hwf⟩
    · refine Memory.wf_cons.mpr ⟨hb, hw, fun c hc => ?_, ih hwf⟩
      rcases Memory.mem_write hc with h | h
      · omega
      · exact hlt c h

/-- Two canonical memories that read alike are equal: equal memories are equal data. -/
theorem Memory.ext_of_wf {m n : Memory} (hm : m.wf = true) (hn : n.wf = true)
    (h : ∀ a, m.read a = n.read a) : m = n := by
  induction m generalizing n with
  | nil =>
    cases n with
    | nil => rfl
    | cons d n =>
      obtain ⟨b, w⟩ := d
      have hw := (Memory.wf_cons.mp hn).2.1
      exact absurd (by simpa [Memory.read] using (h b).symm) hw
  | cons c m ih =>
    obtain ⟨a, v⟩ := c
    obtain ⟨_, hv, hlt, hwf⟩ := Memory.wf_cons.mp hm
    cases n with
    | nil =>
      have := h a
      simp [Memory.read, hv] at this
    | cons d n =>
      obtain ⟨b, w⟩ := d
      obtain ⟨_, hw, hlt', hwf'⟩ := Memory.wf_cons.mp hn
      have ha := h a
      have hb := h b
      rcases lt_trichotomy a b with hab | hab | hab
      · have : Memory.read n a = 0#16 := Memory.read_eq_zero_of_lt fun c hc => hab.trans (hlt' c hc)
        simp [Memory.read, Nat.ne_of_lt hab, this, hv] at ha
      · subst hab
        have hvw : v = w := by simpa [Memory.read] using ha
        subst hvw
        congr 1
        refine ih hwf hwf' fun x => ?_
        by_cases hx : x = a
        · subst hx
          rw [Memory.read_eq_zero_of_lt hlt, Memory.read_eq_zero_of_lt hlt']
        · simpa [Memory.read, hx] using h x
      · have : Memory.read m b = 0#16 := Memory.read_eq_zero_of_lt fun c hc => hab.trans (hlt c hc)
        simp [Memory.read, Nat.ne_of_lt hab, this, hw.symm] at hb

theorem State.memRead_eq (s : State) (a : Addr) : s.memRead a = s.mem.read a.toNat := rfl

/-- `MemRead` after `MemWrite` (R56, R58). -/
theorem State.memRead_memWrite {s : State} (hs : s.mem.wf = true) (a b : Addr) (v : Word) :
    (s.memWrite a v).memRead b = if b = a then v else s.memRead b := by
  simp only [State.memRead, State.memWrite, Memory.read_write hs, BitVec.toNat_inj]

/-- `MemWrite` keeps the canonical form. -/
theorem State.memWrite_wf {s : State} (hs : s.mem.wf = true) (a : Addr) (v : Word) :
    (s.memWrite a v).mem.wf = true := Memory.write_wf hs a.isLt v

end Sys2Proof.Machine
end

