-- ==== Sys2Proof/Laws/State.lean ====
section
/-!
SUPPORT. One lemma per field per update of the state, true by unfolding, so that no proof unfolds a record update.
-/

namespace Sys2Proof.Machine

@[simp] theorem State.setAc_ac (s : State) (v : Word) : (s.setAc v).ac = v := rfl
@[simp] theorem State.setAc_ir (s : State) (v : Word) : (s.setAc v).ir = s.ir := rfl
@[simp] theorem State.setAc_mar (s : State) (v : Word) : (s.setAc v).mar = s.mar := rfl
@[simp] theorem State.setAc_mbr (s : State) (v : Word) : (s.setAc v).mbr = s.mbr := rfl
@[simp] theorem State.setAc_pc (s : State) (v : Word) : (s.setAc v).pc = s.pc := rfl
@[simp] theorem State.setAc_input (s : State) (v : Word) : (s.setAc v).input = s.input := rfl
@[simp] theorem State.setAc_output (s : State) (v : Word) : (s.setAc v).output = s.output := rfl
@[simp] theorem State.setAc_mem (s : State) (v : Word) : (s.setAc v).mem = s.mem := rfl
@[simp] theorem State.setAc_runState (s : State) (v : Word) : (s.setAc v).runState = s.runState := rfl
@[simp] theorem State.setAc_fatal (s : State) (v : Word) : (s.setAc v).fatal = s.fatal := rfl
@[simp] theorem State.setAc_errorKind (s : State) (v : Word) : (s.setAc v).errorKind = s.errorKind := rfl
@[simp] theorem State.setAc_outputs (s : State) (v : Word) : (s.setAc v).outputs = s.outputs := rfl
@[simp] theorem State.setAc_inputReady (s : State) (v : Word) : (s.setAc v).inputReady = s.inputReady := rfl
@[simp] theorem State.setAc_stopRequested (s : State) (v : Word) : (s.setAc v).stopRequested = s.stopRequested := rfl
@[simp] theorem State.setAc_ready (s : State) (v : Word) : (s.setAc v).ready = s.ready := rfl
@[simp] theorem State.setAc_singleStep (s : State) (v : Word) : (s.setAc v).singleStep = s.singleStep := rfl
@[simp] theorem State.setAc_memRead (s : State) (v : Word) (b : Addr) : (s.setAc v).memRead b = s.memRead b := rfl

@[simp] theorem State.setIr_ac (s : State) (v : Word) : (s.setIr v).ac = s.ac := rfl
@[simp] theorem State.setIr_ir (s : State) (v : Word) : (s.setIr v).ir = v := rfl
@[simp] theorem State.setIr_mar (s : State) (v : Word) : (s.setIr v).mar = s.mar := rfl
@[simp] theorem State.setIr_mbr (s : State) (v : Word) : (s.setIr v).mbr = s.mbr := rfl
@[simp] theorem State.setIr_pc (s : State) (v : Word) : (s.setIr v).pc = s.pc := rfl
@[simp] theorem State.setIr_input (s : State) (v : Word) : (s.setIr v).input = s.input := rfl
@[simp] theorem State.setIr_output (s : State) (v : Word) : (s.setIr v).output = s.output := rfl
@[simp] theorem State.setIr_mem (s : State) (v : Word) : (s.setIr v).mem = s.mem := rfl
@[simp] theorem State.setIr_runState (s : State) (v : Word) : (s.setIr v).runState = s.runState := rfl
@[simp] theorem State.setIr_fatal (s : State) (v : Word) : (s.setIr v).fatal = s.fatal := rfl
@[simp] theorem State.setIr_errorKind (s : State) (v : Word) : (s.setIr v).errorKind = s.errorKind := rfl
@[simp] theorem State.setIr_outputs (s : State) (v : Word) : (s.setIr v).outputs = s.outputs := rfl
@[simp] theorem State.setIr_inputReady (s : State) (v : Word) : (s.setIr v).inputReady = s.inputReady := rfl
@[simp] theorem State.setIr_stopRequested (s : State) (v : Word) : (s.setIr v).stopRequested = s.stopRequested := rfl
@[simp] theorem State.setIr_ready (s : State) (v : Word) : (s.setIr v).ready = s.ready := rfl
@[simp] theorem State.setIr_singleStep (s : State) (v : Word) : (s.setIr v).singleStep = s.singleStep := rfl
@[simp] theorem State.setIr_memRead (s : State) (v : Word) (b : Addr) : (s.setIr v).memRead b = s.memRead b := rfl

@[simp] theorem State.setMar_ac (s : State) (a : Addr) : (s.setMar a).ac = s.ac := rfl
@[simp] theorem State.setMar_ir (s : State) (a : Addr) : (s.setMar a).ir = s.ir := rfl
@[simp] theorem State.setMar_mar (s : State) (a : Addr) : (s.setMar a).mar = a := rfl
@[simp] theorem State.setMar_mbr (s : State) (a : Addr) : (s.setMar a).mbr = s.mbr := rfl
@[simp] theorem State.setMar_pc (s : State) (a : Addr) : (s.setMar a).pc = s.pc := rfl
@[simp] theorem State.setMar_input (s : State) (a : Addr) : (s.setMar a).input = s.input := rfl
@[simp] theorem State.setMar_output (s : State) (a : Addr) : (s.setMar a).output = s.output := rfl
@[simp] theorem State.setMar_mem (s : State) (a : Addr) : (s.setMar a).mem = s.mem := rfl
@[simp] theorem State.setMar_runState (s : State) (a : Addr) : (s.setMar a).runState = s.runState := rfl
@[simp] theorem State.setMar_fatal (s : State) (a : Addr) : (s.setMar a).fatal = s.fatal := rfl
@[simp] theorem State.setMar_errorKind (s : State) (a : Addr) : (s.setMar a).errorKind = s.errorKind := rfl
@[simp] theorem State.setMar_outputs (s : State) (a : Addr) : (s.setMar a).outputs = s.outputs := rfl
@[simp] theorem State.setMar_inputReady (s : State) (a : Addr) : (s.setMar a).inputReady = s.inputReady := rfl
@[simp] theorem State.setMar_stopRequested (s : State) (a : Addr) : (s.setMar a).stopRequested = s.stopRequested := rfl
@[simp] theorem State.setMar_ready (s : State) (a : Addr) : (s.setMar a).ready = s.ready := rfl
@[simp] theorem State.setMar_singleStep (s : State) (a : Addr) : (s.setMar a).singleStep = s.singleStep := rfl
@[simp] theorem State.setMar_memRead (s : State) (a : Addr) (b : Addr) : (s.setMar a).memRead b = s.memRead b := rfl

@[simp] theorem State.setMbr_ac (s : State) (v : Word) : (s.setMbr v).ac = s.ac := rfl
@[simp] theorem State.setMbr_ir (s : State) (v : Word) : (s.setMbr v).ir = s.ir := rfl
@[simp] theorem State.setMbr_mar (s : State) (v : Word) : (s.setMbr v).mar = s.mar := rfl
@[simp] theorem State.setMbr_mbr (s : State) (v : Word) : (s.setMbr v).mbr = v := rfl
@[simp] theorem State.setMbr_pc (s : State) (v : Word) : (s.setMbr v).pc = s.pc := rfl
@[simp] theorem State.setMbr_input (s : State) (v : Word) : (s.setMbr v).input = s.input := rfl
@[simp] theorem State.setMbr_output (s : State) (v : Word) : (s.setMbr v).output = s.output := rfl
@[simp] theorem State.setMbr_mem (s : State) (v : Word) : (s.setMbr v).mem = s.mem := rfl
@[simp] theorem State.setMbr_runState (s : State) (v : Word) : (s.setMbr v).runState = s.runState := rfl
@[simp] theorem State.setMbr_fatal (s : State) (v : Word) : (s.setMbr v).fatal = s.fatal := rfl
@[simp] theorem State.setMbr_errorKind (s : State) (v : Word) : (s.setMbr v).errorKind = s.errorKind := rfl
@[simp] theorem State.setMbr_outputs (s : State) (v : Word) : (s.setMbr v).outputs = s.outputs := rfl
@[simp] theorem State.setMbr_inputReady (s : State) (v : Word) : (s.setMbr v).inputReady = s.inputReady := rfl
@[simp] theorem State.setMbr_stopRequested (s : State) (v : Word) : (s.setMbr v).stopRequested = s.stopRequested := rfl
@[simp] theorem State.setMbr_ready (s : State) (v : Word) : (s.setMbr v).ready = s.ready := rfl
@[simp] theorem State.setMbr_singleStep (s : State) (v : Word) : (s.setMbr v).singleStep = s.singleStep := rfl
@[simp] theorem State.setMbr_memRead (s : State) (v : Word) (b : Addr) : (s.setMbr v).memRead b = s.memRead b := rfl

@[simp] theorem State.setPc_ac (s : State) (a : Addr) : (s.setPc a).ac = s.ac := rfl
@[simp] theorem State.setPc_ir (s : State) (a : Addr) : (s.setPc a).ir = s.ir := rfl
@[simp] theorem State.setPc_mar (s : State) (a : Addr) : (s.setPc a).mar = s.mar := rfl
@[simp] theorem State.setPc_mbr (s : State) (a : Addr) : (s.setPc a).mbr = s.mbr := rfl
@[simp] theorem State.setPc_pc (s : State) (a : Addr) : (s.setPc a).pc = a := rfl
@[simp] theorem State.setPc_input (s : State) (a : Addr) : (s.setPc a).input = s.input := rfl
@[simp] theorem State.setPc_output (s : State) (a : Addr) : (s.setPc a).output = s.output := rfl
@[simp] theorem State.setPc_mem (s : State) (a : Addr) : (s.setPc a).mem = s.mem := rfl
@[simp] theorem State.setPc_runState (s : State) (a : Addr) : (s.setPc a).runState = s.runState := rfl
@[simp] theorem State.setPc_fatal (s : State) (a : Addr) : (s.setPc a).fatal = s.fatal := rfl
@[simp] theorem State.setPc_errorKind (s : State) (a : Addr) : (s.setPc a).errorKind = s.errorKind := rfl
@[simp] theorem State.setPc_outputs (s : State) (a : Addr) : (s.setPc a).outputs = s.outputs := rfl
@[simp] theorem State.setPc_inputReady (s : State) (a : Addr) : (s.setPc a).inputReady = s.inputReady := rfl
@[simp] theorem State.setPc_stopRequested (s : State) (a : Addr) : (s.setPc a).stopRequested = s.stopRequested := rfl
@[simp] theorem State.setPc_ready (s : State) (a : Addr) : (s.setPc a).ready = s.ready := rfl
@[simp] theorem State.setPc_singleStep (s : State) (a : Addr) : (s.setPc a).singleStep = s.singleStep := rfl
@[simp] theorem State.setPc_memRead (s : State) (a : Addr) (b : Addr) : (s.setPc a).memRead b = s.memRead b := rfl

@[simp] theorem State.setInput_ac (s : State) (v : Word) : (s.setInput v).ac = s.ac := rfl
@[simp] theorem State.setInput_ir (s : State) (v : Word) : (s.setInput v).ir = s.ir := rfl
@[simp] theorem State.setInput_mar (s : State) (v : Word) : (s.setInput v).mar = s.mar := rfl
@[simp] theorem State.setInput_mbr (s : State) (v : Word) : (s.setInput v).mbr = s.mbr := rfl
@[simp] theorem State.setInput_pc (s : State) (v : Word) : (s.setInput v).pc = s.pc := rfl
@[simp] theorem State.setInput_input (s : State) (v : Word) : (s.setInput v).input = v := rfl
@[simp] theorem State.setInput_output (s : State) (v : Word) : (s.setInput v).output = s.output := rfl
@[simp] theorem State.setInput_mem (s : State) (v : Word) : (s.setInput v).mem = s.mem := rfl
@[simp] theorem State.setInput_runState (s : State) (v : Word) : (s.setInput v).runState = s.runState := rfl
@[simp] theorem State.setInput_fatal (s : State) (v : Word) : (s.setInput v).fatal = s.fatal := rfl
@[simp] theorem State.setInput_errorKind (s : State) (v : Word) : (s.setInput v).errorKind = s.errorKind := rfl
@[simp] theorem State.setInput_outputs (s : State) (v : Word) : (s.setInput v).outputs = s.outputs := rfl
@[simp] theorem State.setInput_inputReady (s : State) (v : Word) : (s.setInput v).inputReady = s.inputReady := rfl
@[simp] theorem State.setInput_stopRequested (s : State) (v : Word) : (s.setInput v).stopRequested = s.stopRequested := rfl
@[simp] theorem State.setInput_ready (s : State) (v : Word) : (s.setInput v).ready = s.ready := rfl
@[simp] theorem State.setInput_singleStep (s : State) (v : Word) : (s.setInput v).singleStep = s.singleStep := rfl
@[simp] theorem State.setInput_memRead (s : State) (v : Word) (b : Addr) : (s.setInput v).memRead b = s.memRead b := rfl

@[simp] theorem State.setRunState_ac (s : State) (r : RunState) : (s.setRunState r).ac = s.ac := rfl
@[simp] theorem State.setRunState_ir (s : State) (r : RunState) : (s.setRunState r).ir = s.ir := rfl
@[simp] theorem State.setRunState_mar (s : State) (r : RunState) : (s.setRunState r).mar = s.mar := rfl
@[simp] theorem State.setRunState_mbr (s : State) (r : RunState) : (s.setRunState r).mbr = s.mbr := rfl
@[simp] theorem State.setRunState_pc (s : State) (r : RunState) : (s.setRunState r).pc = s.pc := rfl
@[simp] theorem State.setRunState_input (s : State) (r : RunState) : (s.setRunState r).input = s.input := rfl
@[simp] theorem State.setRunState_output (s : State) (r : RunState) : (s.setRunState r).output = s.output := rfl
@[simp] theorem State.setRunState_mem (s : State) (r : RunState) : (s.setRunState r).mem = s.mem := rfl
@[simp] theorem State.setRunState_runState (s : State) (r : RunState) : (s.setRunState r).runState = r := rfl
@[simp] theorem State.setRunState_fatal (s : State) (r : RunState) : (s.setRunState r).fatal = s.fatal := rfl
@[simp] theorem State.setRunState_errorKind (s : State) (r : RunState) : (s.setRunState r).errorKind = s.errorKind := rfl
@[simp] theorem State.setRunState_outputs (s : State) (r : RunState) : (s.setRunState r).outputs = s.outputs := rfl
@[simp] theorem State.setRunState_inputReady (s : State) (r : RunState) : (s.setRunState r).inputReady = s.inputReady := rfl
@[simp] theorem State.setRunState_stopRequested (s : State) (r : RunState) : (s.setRunState r).stopRequested = s.stopRequested := rfl
@[simp] theorem State.setRunState_ready (s : State) (r : RunState) : (s.setRunState r).ready = s.ready := rfl
@[simp] theorem State.setRunState_singleStep (s : State) (r : RunState) : (s.setRunState r).singleStep = s.singleStep := rfl
@[simp] theorem State.setRunState_memRead (s : State) (r : RunState) (b : Addr) : (s.setRunState r).memRead b = s.memRead b := rfl

@[simp] theorem State.memWrite_ac (s : State) (a : Addr) (v : Word) : (s.memWrite a v).ac = s.ac := rfl
@[simp] theorem State.memWrite_ir (s : State) (a : Addr) (v : Word) : (s.memWrite a v).ir = s.ir := rfl
@[simp] theorem State.memWrite_mar (s : State) (a : Addr) (v : Word) : (s.memWrite a v).mar = s.mar := rfl
@[simp] theorem State.memWrite_mbr (s : State) (a : Addr) (v : Word) : (s.memWrite a v).mbr = s.mbr := rfl
@[simp] theorem State.memWrite_pc (s : State) (a : Addr) (v : Word) : (s.memWrite a v).pc = s.pc := rfl
@[simp] theorem State.memWrite_input (s : State) (a : Addr) (v : Word) : (s.memWrite a v).input = s.input := rfl
@[simp] theorem State.memWrite_output (s : State) (a : Addr) (v : Word) : (s.memWrite a v).output = s.output := rfl
@[simp] theorem State.memWrite_mem (s : State) (a : Addr) (v : Word) : (s.memWrite a v).mem = s.mem.write a.toNat v := rfl
@[simp] theorem State.memWrite_runState (s : State) (a : Addr) (v : Word) : (s.memWrite a v).runState = s.runState := rfl
@[simp] theorem State.memWrite_fatal (s : State) (a : Addr) (v : Word) : (s.memWrite a v).fatal = s.fatal := rfl
@[simp] theorem State.memWrite_errorKind (s : State) (a : Addr) (v : Word) : (s.memWrite a v).errorKind = s.errorKind := rfl
@[simp] theorem State.memWrite_outputs (s : State) (a : Addr) (v : Word) : (s.memWrite a v).outputs = s.outputs := rfl
@[simp] theorem State.memWrite_inputReady (s : State) (a : Addr) (v : Word) : (s.memWrite a v).inputReady = s.inputReady := rfl
@[simp] theorem State.memWrite_stopRequested (s : State) (a : Addr) (v : Word) : (s.memWrite a v).stopRequested = s.stopRequested := rfl
@[simp] theorem State.memWrite_ready (s : State) (a : Addr) (v : Word) : (s.memWrite a v).ready = s.ready := rfl
@[simp] theorem State.memWrite_singleStep (s : State) (a : Addr) (v : Word) : (s.memWrite a v).singleStep = s.singleStep := rfl

@[simp] theorem State.emit_ac (s : State) (v : Word) : (s.emit v).ac = s.ac := rfl
@[simp] theorem State.emit_ir (s : State) (v : Word) : (s.emit v).ir = s.ir := rfl
@[simp] theorem State.emit_mar (s : State) (v : Word) : (s.emit v).mar = s.mar := rfl
@[simp] theorem State.emit_mbr (s : State) (v : Word) : (s.emit v).mbr = s.mbr := rfl
@[simp] theorem State.emit_pc (s : State) (v : Word) : (s.emit v).pc = s.pc := rfl
@[simp] theorem State.emit_input (s : State) (v : Word) : (s.emit v).input = s.input := rfl
@[simp] theorem State.emit_output (s : State) (v : Word) : (s.emit v).output = v := rfl
@[simp] theorem State.emit_mem (s : State) (v : Word) : (s.emit v).mem = s.mem := rfl
@[simp] theorem State.emit_runState (s : State) (v : Word) : (s.emit v).runState = s.runState := rfl
@[simp] theorem State.emit_fatal (s : State) (v : Word) : (s.emit v).fatal = s.fatal := rfl
@[simp] theorem State.emit_errorKind (s : State) (v : Word) : (s.emit v).errorKind = s.errorKind := rfl
@[simp] theorem State.emit_outputs (s : State) (v : Word) : (s.emit v).outputs = s.outputs ++ [v] := rfl
@[simp] theorem State.emit_inputReady (s : State) (v : Word) : (s.emit v).inputReady = s.inputReady := rfl
@[simp] theorem State.emit_stopRequested (s : State) (v : Word) : (s.emit v).stopRequested = s.stopRequested := rfl
@[simp] theorem State.emit_ready (s : State) (v : Word) : (s.emit v).ready = s.ready := rfl
@[simp] theorem State.emit_singleStep (s : State) (v : Word) : (s.emit v).singleStep = s.singleStep := rfl
@[simp] theorem State.emit_memRead (s : State) (v : Word) (b : Addr) : (s.emit v).memRead b = s.memRead b := rfl

@[simp] theorem State.raiseFatal_ac (s : State) (k : ErrorKind) : (s.raiseFatal k).ac = s.ac := rfl
@[simp] theorem State.raiseFatal_ir (s : State) (k : ErrorKind) : (s.raiseFatal k).ir = s.ir := rfl
@[simp] theorem State.raiseFatal_mar (s : State) (k : ErrorKind) : (s.raiseFatal k).mar = s.mar := rfl
@[simp] theorem State.raiseFatal_mbr (s : State) (k : ErrorKind) : (s.raiseFatal k).mbr = s.mbr := rfl
@[simp] theorem State.raiseFatal_pc (s : State) (k : ErrorKind) : (s.raiseFatal k).pc = s.pc := rfl
@[simp] theorem State.raiseFatal_input (s : State) (k : ErrorKind) : (s.raiseFatal k).input = s.input := rfl
@[simp] theorem State.raiseFatal_output (s : State) (k : ErrorKind) : (s.raiseFatal k).output = s.output := rfl
@[simp] theorem State.raiseFatal_mem (s : State) (k : ErrorKind) : (s.raiseFatal k).mem = s.mem := rfl
@[simp] theorem State.raiseFatal_runState (s : State) (k : ErrorKind) : (s.raiseFatal k).runState = .haltedAbnormal := rfl
@[simp] theorem State.raiseFatal_fatal (s : State) (k : ErrorKind) : (s.raiseFatal k).fatal = true := rfl
@[simp] theorem State.raiseFatal_errorKind (s : State) (k : ErrorKind) : (s.raiseFatal k).errorKind = k := rfl
@[simp] theorem State.raiseFatal_outputs (s : State) (k : ErrorKind) : (s.raiseFatal k).outputs = s.outputs := rfl
@[simp] theorem State.raiseFatal_inputReady (s : State) (k : ErrorKind) : (s.raiseFatal k).inputReady = s.inputReady := rfl
@[simp] theorem State.raiseFatal_stopRequested (s : State) (k : ErrorKind) : (s.raiseFatal k).stopRequested = s.stopRequested := rfl
@[simp] theorem State.raiseFatal_ready (s : State) (k : ErrorKind) : (s.raiseFatal k).ready = s.ready := rfl
@[simp] theorem State.raiseFatal_singleStep (s : State) (k : ErrorKind) : (s.raiseFatal k).singleStep = s.singleStep := rfl
@[simp] theorem State.raiseFatal_memRead (s : State) (k : ErrorKind) (b : Addr) : (s.raiseFatal k).memRead b = s.memRead b := rfl

@[simp] theorem State.readThrough_ac (s : State) (a : Addr) : (s.readThrough a).ac = s.ac := rfl
@[simp] theorem State.readThrough_ir (s : State) (a : Addr) : (s.readThrough a).ir = s.ir := rfl
@[simp] theorem State.readThrough_mar (s : State) (a : Addr) : (s.readThrough a).mar = a := rfl
@[simp] theorem State.readThrough_mbr (s : State) (a : Addr) : (s.readThrough a).mbr = s.memRead a := rfl
@[simp] theorem State.readThrough_pc (s : State) (a : Addr) : (s.readThrough a).pc = s.pc := rfl
@[simp] theorem State.readThrough_input (s : State) (a : Addr) : (s.readThrough a).input = s.input := rfl
@[simp] theorem State.readThrough_output (s : State) (a : Addr) : (s.readThrough a).output = s.output := rfl
@[simp] theorem State.readThrough_mem (s : State) (a : Addr) : (s.readThrough a).mem = s.mem := rfl
@[simp] theorem State.readThrough_runState (s : State) (a : Addr) : (s.readThrough a).runState = s.runState := rfl
@[simp] theorem State.readThrough_fatal (s : State) (a : Addr) : (s.readThrough a).fatal = s.fatal := rfl
@[simp] theorem State.readThrough_errorKind (s : State) (a : Addr) : (s.readThrough a).errorKind = s.errorKind := rfl
@[simp] theorem State.readThrough_outputs (s : State) (a : Addr) : (s.readThrough a).outputs = s.outputs := rfl
@[simp] theorem State.readThrough_inputReady (s : State) (a : Addr) : (s.readThrough a).inputReady = s.inputReady := rfl
@[simp] theorem State.readThrough_stopRequested (s : State) (a : Addr) : (s.readThrough a).stopRequested = s.stopRequested := rfl
@[simp] theorem State.readThrough_ready (s : State) (a : Addr) : (s.readThrough a).ready = s.ready := rfl
@[simp] theorem State.readThrough_singleStep (s : State) (a : Addr) : (s.readThrough a).singleStep = s.singleStep := rfl
@[simp] theorem State.readThrough_memRead (s : State) (a : Addr) (b : Addr) : (s.readThrough a).memRead b = s.memRead b := rfl

end Sys2Proof.Machine
end

