-- ==== Sys2Proof/Laws/Ops.lean ====
section
/-!
SUPPORT. Everything each shared operation can do, said once: the ALU's two ends, SkipCond's test, the address
operations, and that the shared operations keep the canonical memory.
-/

namespace Sys2Proof.Machine

theorem inWordRange_iff (n : Int) : inWordRange n = true ↔ -32768 ≤ n ∧ n ≤ 32767 := by
  simp [inWordRange]

/-- The word of an in-range number reads back as that number (R9). -/
theorem sval_wordOf {n : Int} (h : -32768 ≤ n ∧ n ≤ 32767) : sval (wordOf n) = n := by
  rw [sval, wordOf, BitVec.toInt_ofInt]
  exact Int.bmod_eq_of_le (by omega) (by omega)

/-- `alu` ends in AC written or in `RegisterOverflow`, nothing else (R130). -/
theorem aluResult_cases (s : State) (n : Int) :
    (-32768 ≤ n ∧ n ≤ 32767 ∧ s.aluResult n = s.setAc (wordOf n)) ∨
      (¬(-32768 ≤ n ∧ n ≤ 32767) ∧ s.aluResult n = s.raiseFatal .registerOverflow) := by
  unfold State.aluResult
  split_ifs with h
  · exact .inl ⟨((inWordRange_iff n).mp h).1, ((inWordRange_iff n).mp h).2, rfl⟩
  · exact .inr ⟨fun h' => h ((inWordRange_iff n).mpr h'), rfl⟩

theorem aluResult_of_inRange {s : State} {n : Int} (h : -32768 ≤ n ∧ n ≤ 32767) :
    s.aluResult n = s.setAc (wordOf n) := by
  rw [State.aluResult, if_pos ((inWordRange_iff n).mpr h)]

theorem aluResult_of_overflow {s : State} {n : Int} (h : ¬(-32768 ≤ n ∧ n ≤ 32767)) :
    s.aluResult n = s.raiseFatal .registerOverflow := by
  rw [State.aluResult, if_neg (mt (inWordRange_iff n).mp h)]

/-- The next address is the 12-bit sum (R25, R54). -/
theorem nextAddr_eq (a : Addr) : nextAddr a = a + 1 := by
  apply BitVec.eq_of_toNat_eq
  simp [nextAddr, mask12]

/-- The cell a word names is that of its low 12 bits (R54). -/
theorem pointee_eq (w : Word) : pointee w = operandField w := by
  apply BitVec.eq_of_toNat_eq
  simp [pointee, mask12, uval, operandField]

/-- The pre-load, by the operand form (R104). -/
theorem preload_eq (i : Instr) (s : State) :
    preload i s = { s with mar := (operandAddr i).getD s.mar,
                           mbr := ((operandAddr i).map s.memRead).getD s.mbr } := by
  cases i <;> rfl

/-- `alu(+, AC, MBR)` and `alu(-, AC, MBR)` in their two ends (R130). -/
theorem aluAdd_cases (s : State) :
    (∃ v : Word, v.toInt = s.ac.toInt + s.mbr.toInt ∧ s.aluAdd = s.setAc v) ∨
      ((s.ac.toInt + s.mbr.toInt < -32768 ∨ 32767 < s.ac.toInt + s.mbr.toInt) ∧
        s.aluAdd = s.raiseFatal .registerOverflow) := by
  rcases aluResult_cases s (sval s.ac + sval s.mbr) with ⟨h1, h2, h⟩ | ⟨hn, h⟩
  · exact .inl ⟨_, sval_wordOf ⟨h1, h2⟩, h⟩
  · exact .inr ⟨by unfold sval at hn; omega, h⟩

theorem aluSub_cases (s : State) :
    (∃ v : Word, v.toInt = s.ac.toInt - s.mbr.toInt ∧ s.aluSub = s.setAc v) ∨
      ((s.ac.toInt - s.mbr.toInt < -32768 ∨ 32767 < s.ac.toInt - s.mbr.toInt) ∧
        s.aluSub = s.raiseFatal .registerOverflow) := by
  rcases aluResult_cases s (sval s.ac - sval s.mbr) with ⟨h1, h2, h⟩ | ⟨hn, h⟩
  · exact .inl ⟨_, sval_wordOf ⟨h1, h2⟩, h⟩
  · exact .inr ⟨by unfold sval at hn; omega, h⟩

/-- SkipCond has no test exactly for condition 11 (R152). -/
theorem skipTest_eq_none {c : BitVec 2} {ac : Word} (h : skipTest c ac = none) : c = 3 := by
  have hc : ∀ c : BitVec 2, c = 0 ∨ c = 1 ∨ c = 2 ∨ c = 3 := by decide
  rcases hc c with rfl | rfl | rfl | rfl
  · cases h
  · cases h
  · cases h
  · rfl

theorem aluResult_mem (s : State) (n : Int) : (s.aluResult n).mem = s.mem := by
  rcases aluResult_cases s n with ⟨_, _, h⟩ | ⟨_, h⟩ <;> rw [h] <;> rfl

/-! The fields of the state an execute phase sees (R107). -/

@[simp] theorem State.atExecute_ac (s : State) (i : Instr) : (s.atExecute i).ac = s.ac := rfl
@[simp] theorem State.atExecute_input (s : State) (i : Instr) : (s.atExecute i).input = s.input := rfl
@[simp] theorem State.atExecute_output (s : State) (i : Instr) : (s.atExecute i).output = s.output := rfl
@[simp] theorem State.atExecute_mem (s : State) (i : Instr) : (s.atExecute i).mem = s.mem := rfl
@[simp] theorem State.atExecute_runState (s : State) (i : Instr) : (s.atExecute i).runState = s.runState := rfl
@[simp] theorem State.atExecute_fatal (s : State) (i : Instr) : (s.atExecute i).fatal = s.fatal := rfl
@[simp] theorem State.atExecute_errorKind (s : State) (i : Instr) : (s.atExecute i).errorKind = s.errorKind := rfl
@[simp] theorem State.atExecute_outputs (s : State) (i : Instr) : (s.atExecute i).outputs = s.outputs := rfl
@[simp] theorem State.atExecute_inputReady (s : State) (i : Instr) : (s.atExecute i).inputReady = s.inputReady := rfl
@[simp] theorem State.atExecute_stopRequested (s : State) (i : Instr) : (s.atExecute i).stopRequested = s.stopRequested := rfl
@[simp] theorem State.atExecute_ready (s : State) (i : Instr) : (s.atExecute i).ready = s.ready := rfl
@[simp] theorem State.atExecute_singleStep (s : State) (i : Instr) : (s.atExecute i).singleStep = s.singleStep := rfl
@[simp] theorem State.atExecute_ir (s : State) (i : Instr) : (s.atExecute i).ir = s.memRead s.pc := rfl
@[simp] theorem State.atExecute_pc (s : State) (i : Instr) : (s.atExecute i).pc = s.pc + 1 := rfl
@[simp] theorem State.atExecute_mar (s : State) (i : Instr) : (s.atExecute i).mar = (operandAddr i).getD s.pc := rfl
@[simp] theorem State.atExecute_mbr (s : State) (i : Instr) :
    (s.atExecute i).mbr = ((operandAddr i).map s.memRead).getD s.mbr := rfl
@[simp] theorem State.atExecute_memRead (s : State) (i : Instr) (b : Addr) :
    (s.atExecute i).memRead b = s.memRead b := rfl

end Sys2Proof.Machine
end

