-- ==== Sys2Proof/Laws/Exec.lean ====
section
/-!
SUPPORT. What the execute phase of any instruction can do, said once: it always has a next state, it keeps IR, INPUT
and the hidden control state, it keeps the canonical memory, and it changes the run state in four ways at most.
-/

namespace Sys2Proof.Machine

/-- Every instruction's execute phase has a next state (R108). -/
theorem exec_next (i : Instr) (s : State) : ∃ t, exec i s = .next t := by
  cases i <;> try exact ⟨_, rfl⟩
  case skipCond c =>
    simp only [exec, execSkipCond]
    split <;> exact ⟨_, rfl⟩

/-- SkipCond's three ends (R152). -/
theorem execSkipCond_cases {c : BitVec 2} {s t : State} (h : exec (.skipCond c) s = .next t) :
    (skipTest c s.ac = some true ∧ t = s.setPc (nextAddr s.pc)) ∨ (skipTest c s.ac = some false ∧ t = s) ∨
      (skipTest c s.ac = none ∧ t = s.raiseFatal .illegalCondition) := by
  simp only [exec, execSkipCond] at h
  split at h <;> cases h <;> simp_all

/-- What no execute phase writes: IR (R22), INPUT (R26) and the hidden control state (R36). -/
theorem exec_frame {i : Instr} {s t : State} (h : exec i s = .next t) :
    t.ir = s.ir ∧ t.input = s.input ∧ t.inputReady = s.inputReady ∧ t.stopRequested = s.stopRequested ∧
      t.ready = s.ready ∧ t.singleStep = s.singleStep := by
  cases i
  case skipCond c =>
    rcases execSkipCond_cases h with ⟨_, rfl⟩ | ⟨_, rfl⟩ | ⟨_, rfl⟩ <;> simp
  case add x =>
    cases h
    rcases aluResult_cases s (sval s.ac + sval s.mbr) with ⟨_, _, h⟩ | ⟨_, h⟩ <;> rw [State.aluAdd, h] <;> simp
  case subt x =>
    cases h
    rcases aluResult_cases s (sval s.ac - sval s.mbr) with ⟨_, _, h⟩ | ⟨_, h⟩ <;> rw [State.aluSub, h] <;> simp
  case addI x =>
    cases h
    rcases aluResult_cases (s.readThrough (pointee s.mbr))
      (sval s.ac + sval (s.memRead (pointee s.mbr))) with ⟨_, _, h⟩ | ⟨_, h⟩ <;>
      simp [State.aluAdd, h]
  all_goals
    cases h
    simp

/-- The memory after an execute phase: only JnS and Store write it, one cell each (R57). -/
theorem exec_mem {i : Instr} {s t : State} (h : exec i s = .next t) :
    t.mem = s.mem ∨ (∃ x, i = .store x ∧ t.mem = (s.memWrite s.mar s.ac).mem) ∨
      (∃ x, i = .jnS x ∧ t.mem = (s.memWrite x (zext16 s.pc)).mem) := by
  cases i
  case skipCond c =>
    rcases execSkipCond_cases h with ⟨_, rfl⟩ | ⟨_, rfl⟩ | ⟨_, rfl⟩ <;> simp
  case store x => cases h; exact .inr (.inl ⟨x, rfl, rfl⟩)
  case jnS x => cases h; exact .inr (.inr ⟨x, rfl, rfl⟩)
  case add x => cases h; exact .inl (aluResult_mem _ _)
  case subt x => cases h; exact .inl (aluResult_mem _ _)
  case addI x => cases h; exact .inl (aluResult_mem _ _)
  all_goals
    cases h
    exact .inl rfl

/-- Every execute phase keeps the canonical memory. -/
theorem exec_mem_wf {i : Instr} {s t : State} (hs : s.mem.wf = true) (h : exec i s = .next t) :
    t.mem.wf = true := by
  rcases exec_mem h with h | ⟨x, _, h⟩ | ⟨x, _, h⟩ <;> rw [h]
  · exact hs
  · exact State.memWrite_wf hs _ _
  · exact State.memWrite_wf hs _ _

/-- The run state, `fatal` and `error_kind` after an execute phase: as before, blocked, halted, or one of the two
errors an execute phase can raise (R172). -/
theorem exec_control {i : Instr} {s t : State} (h : exec i s = .next t) :
    (t.runState = s.runState ∧ t.fatal = s.fatal ∧ t.errorKind = s.errorKind) ∨
      (t.runState = .blockedOnInput ∧ t.fatal = s.fatal ∧ t.errorKind = s.errorKind) ∨
      (t.runState = (if s.fatal then .haltedAbnormal else .haltedNormal) ∧ t.fatal = s.fatal ∧
        t.errorKind = s.errorKind) ∨
      (t.runState = .haltedAbnormal ∧ t.fatal = true ∧
        (t.errorKind = .illegalCondition ∨ t.errorKind = .registerOverflow)) := by
  cases i
  case skipCond c =>
    rcases execSkipCond_cases h with ⟨_, rfl⟩ | ⟨_, rfl⟩ | ⟨_, rfl⟩ <;> simp
  case add x =>
    cases h
    rcases aluResult_cases s (sval s.ac + sval s.mbr) with ⟨_, _, h⟩ | ⟨_, h⟩ <;> rw [State.aluAdd, h] <;> simp
  case subt x =>
    cases h
    rcases aluResult_cases s (sval s.ac - sval s.mbr) with ⟨_, _, h⟩ | ⟨_, h⟩ <;> rw [State.aluSub, h] <;> simp
  case addI x =>
    cases h
    rcases aluResult_cases (s.readThrough (pointee s.mbr))
      (sval s.ac + sval (s.memRead (pointee s.mbr))) with ⟨_, _, h⟩ | ⟨_, h⟩ <;>
      simp [State.aluAdd, h]
  all_goals
    cases h
    simp

/-- OUTPUT and the output sequence after an execute phase: only Output writes them (R27, R34). -/
theorem exec_outputs {i : Instr} {s t : State} (h : exec i s = .next t) :
    (t.output = s.output ∧ t.outputs = s.outputs) ∨
      (i = .output ∧ t.output = s.ac ∧ t.outputs = s.outputs ++ [s.ac]) := by
  cases i
  case skipCond c =>
    rcases execSkipCond_cases h with ⟨_, rfl⟩ | ⟨_, rfl⟩ | ⟨_, rfl⟩ <;> simp
  case output => cases h; exact .inr ⟨rfl, rfl, rfl⟩
  case add x =>
    cases h
    rcases aluResult_cases s (sval s.ac + sval s.mbr) with ⟨_, _, h⟩ | ⟨_, h⟩ <;> rw [State.aluAdd, h] <;> simp
  case subt x =>
    cases h
    rcases aluResult_cases s (sval s.ac - sval s.mbr) with ⟨_, _, h⟩ | ⟨_, h⟩ <;> rw [State.aluSub, h] <;> simp
  case addI x =>
    cases h
    rcases aluResult_cases (s.readThrough (pointee s.mbr))
      (sval s.ac + sval (s.memRead (pointee s.mbr))) with ⟨_, _, h⟩ | ⟨_, h⟩ <;>
      simp [State.aluAdd, h]
  all_goals
    cases h
    simp

end Sys2Proof.Machine
end

