-- ==== Sys2Proof/Laws/Cycle.lean ====
section
/-!
SUPPORT. What one step can do, said once: the stop transition, the completion of an Input, a fetch that raises an
error, or a fetch and an execute phase (R100, R197).
-/

namespace Sys2Proof.Machine

/-- The state of a fetch that raised `IllegalOpcode` (R103). -/
def atIllegalOpcode (s : State) : State :=
  { s with mar := s.pc, ir := s.memRead s.pc, fatal := true, errorKind := .illegalOpcode,
           runState := .haltedAbnormal }

/-- The state of a fetch of `i` from address 4095, which raised `MaxAddressExceeded` (R105). -/
def atTopAddress (s : State) (i : Instr) : State :=
  { s.atExecute i with pc := 0, fatal := true, errorKind := .maxAddressExceeded, runState := .haltedAbnormal }

theorem fetchWord_eq (s : State) : fetchWord s = { s with mar := s.pc, ir := s.memRead s.pc } := rfl

theorem fetch_illegal {s : State} {op : BitVec 4} (h : decode (s.memRead s.pc) = .illegalOpcode op) :
    fetch s = .raised (atIllegalOpcode s) := by
  simp only [fetch, fetchWord_eq, h]
  rfl

theorem fetch_top {s : State} {i : Instr} (h : s.Fetches i) (hp : s.pc = 4095#12) :
    fetch s = .raised (atTopAddress s i) := by
  have h' : decode (s.memRead s.pc) = .instr i := h
  simp only [fetch, fetchWord_eq, h', preload_eq, advancePc]
  rw [if_pos (by simpa [Config.topAddr] using hp)]
  cases i <;> rfl

theorem fetch_ready {s : State} {i : Instr} (h : s.Fetches i) (hp : s.pc ≠ 4095#12) :
    fetch s = .ready i (s.atExecute i) := by
  have h' : decode (s.memRead s.pc) = .instr i := h
  simp only [fetch, fetchWord_eq, h', preload_eq, advancePc]
  rw [if_neg (by simpa [Config.topAddr] using hp)]
  rw [nextAddr_eq]
  cases i <;> rfl

theorem step_eq_fetchExecute {s : State} (h : s.Runs) : step s = fetchExecute s := by
  obtain ⟨h1, h2, h3⟩ := h
  simp [step, runControl, stopEnabled, runEnabled, cycleDefined, cycle, h1, h2, h3]

/-- A cycle of a running machine, in its three cases. -/
theorem fetchExecute_cases (s : State) :
    (∃ op, decode (s.memRead s.pc) = .illegalOpcode op ∧ fetchExecute s = .next (atIllegalOpcode s)) ∨
      (∃ i, s.Fetches i ∧ s.pc = 4095#12 ∧ fetchExecute s = .next (atTopAddress s i)) ∨
      (∃ i, s.Fetches i ∧ s.pc ≠ 4095#12 ∧ fetchExecute s = exec i (s.atExecute i)) := by
  cases h : decode (s.memRead s.pc) with
  | illegalOpcode op => exact .inl ⟨op, rfl, by rw [fetchExecute, fetch_illegal h]⟩
  | instr i =>
    by_cases hp : s.pc = 4095#12
    · exact .inr (.inl ⟨i, h, hp, by rw [fetchExecute, fetch_top h hp]⟩)
    · exact .inr (.inr ⟨i, h, hp, by rw [fetchExecute, fetch_ready h hp]⟩)

/-- A cycle with a next state, whatever the run control (R100). -/
theorem cycle_cases {s t : State} (h : cycle s = .next t) :
    (s.runState = .blockedOnInput ∧ s.inputReady = true ∧ t = completeInput s) ∨
      (s.runState = .running ∧ fetchExecute s = .next t) := by
  cases hr : s.runState <;> cases hi : s.inputReady <;> simp_all [cycle, cycleDefined]

/-- A step with a next state: the stop transition, or a cycle in continuous mode with no stop requested (R197). -/
theorem step_cases {s t : State} (h : step s = .next t) :
    (s.stopRequested = true ∧
        (s.runState = .running ∨ s.runState = .paused ∨ s.runState = .blockedOnInput) ∧ t = takeStop s) ∨
      (s.stopRequested = false ∧ s.singleStep = false ∧ cycle s = .next t) := by
  unfold step runControl at h
  split_ifs at h with h1 h2
  · refine .inl ?_
    cases h
    cases hr : s.runState <;> simp_all [stopEnabled]
  · refine .inr ?_
    simp [runEnabled] at h2
    exact ⟨h2.1.1, h2.1.2, h⟩

/-- The machine's step is never refused. -/
theorem step_not_refused (s : State) (r : Refusal) : step s ≠ .refused r := by
  intro h
  unfold step runControl at h
  split_ifs at h with h1 h2
  have hc : cycleDefined s = true := by
    simp [runEnabled] at h2
    exact h2.2
  rw [cycle, if_pos hc] at h
  split at h
  · rcases fetchExecute_cases s with ⟨_, _, h'⟩ | ⟨_, _, _, h'⟩ | ⟨i, _, _, h'⟩
    · simp [h'] at h
    · simp [h'] at h
    · obtain ⟨u, hu⟩ := exec_next i (s.atExecute i)
      simp [h', hu] at h
  · cases h

end Sys2Proof.Machine
end

