-- ==== Sys2Proof/Laws/HostOps.lean ====
section
/-!
SUPPORT. What an operation of the host can do, said once (R203), and what a load leaves in memory.
-/

namespace Sys2Proof.Machine

/-- A host operation with a next state was admitted and has its effect. -/
theorem hostStep_cases {op : HostOp} {s t : State} (h : hostStep op s = .next t) :
    admitted op s = true ∧ hostEffect op s = .next t := by
  unfold hostStep at h
  split_ifs at h with ha
  exact ⟨ha, h⟩

theorem unpause_of_paused {s : State} (h : s.runState = .paused) : unpause s = { s with runState := .running } := by
  simp only [unpause, h]
  rfl

theorem unpause_of_ne {s : State} (h : s.runState ≠ .paused) : unpause s = s := by
  unfold unpause
  split
  · exact absurd ‹_› h
  · rfl

theorem pauseAgain_of_running {s : State} (h : s.runState = .running) :
    pauseAgain s = { s with runState := .paused } := by
  simp only [pauseAgain, h]
  rfl

theorem pauseAgain_of_ne {s : State} (h : s.runState ≠ .running) : pauseAgain s = s := by
  unfold pauseAgain
  split
  · exact absurd ‹_› h
  · rfl

/-- A single-step call is one cycle between the unpausing and the pausing (R194). -/
theorem singleStepCycle_cases {s t : State} (h : singleStepCycle s = .next t) :
    ∃ u, cycle (unpause s) = .next u ∧ t = pauseAgain u := by
  unfold singleStepCycle at h
  cases hc : cycle (unpause s) with
  | next u => rw [hc] at h; cases h; exact ⟨u, rfl, rfl⟩
  | fault r => rw [hc] at h; cases h
  | refused r => rw [hc] at h; cases h

/-- The words of a program keep the canonical memory. -/
theorem copyProgram_wf {p : Program} {m : Memory} (hp : p.inRange = true) (hm : m.wf = true) :
    (copyProgram p m).wf = true := by
  induction p generalizing m with
  | nil => exact hm
  | cons c p ih =>
    obtain ⟨a, w⟩ := c
    simp only [Program.inRange, List.all_cons, Bool.and_eq_true, decide_eq_true_eq] at hp
    exact ih hp.2 (Memory.write_wf hm hp.1 w)

/-- An address the program does not name reads as before. -/
theorem copyProgram_read_other {p : Program} {m : Memory} (hp : p.inRange = true) (hm : m.wf = true) {a : Nat}
    (ha : ∀ c ∈ p, c.1 ≠ a) : (copyProgram p m).read a = m.read a := by
  induction p generalizing m with
  | nil => rfl
  | cons c p ih =>
    obtain ⟨b, w⟩ := c
    simp only [Program.inRange, List.all_cons, Bool.and_eq_true, decide_eq_true_eq] at hp
    rw [copyProgram, ih hp.2 (Memory.write_wf hm hp.1 w) fun c hc => ha c (List.mem_cons_of_mem _ hc),
      Memory.read_write hm, if_neg (ha (b, w) List.mem_cons_self).symm]

end Sys2Proof.Machine
end

