-- ==== Sys2Proof/Laws/PerInstr.lean ====
section
/-!
SUPPORT. Statements about every instruction as a term, one lemma per constructor. `EncodedOpcode`: the encoder writes
the opcode number the table gives the instruction (30_encoding.md R74).
-/

namespace Sys2Proof.Laws.EncodedOpcode

/-- The opcode number of the table of R74. -/
def number : Instr → BitVec 4
  | .jnS _ => 0
  | .load _ => 1
  | .store _ => 2
  | .add _ => 3
  | .subt _ => 4
  | .input => 5
  | .output => 6
  | .halt => 7
  | .skipCond _ => 8
  | .jump _ => 9
  | .clear => 10
  | .addI _ => 11
  | .jumpI _ => 12

def Statement (i : Instr) : Prop := opField (encode i) = number i

theorem jnS (x : Addr) : Statement (.jnS x) := opField_instrWord 0 x
theorem load (x : Addr) : Statement (.load x) := opField_instrWord 1 x
theorem store (x : Addr) : Statement (.store x) := opField_instrWord 2 x
theorem add (x : Addr) : Statement (.add x) := opField_instrWord 3 x
theorem subt (x : Addr) : Statement (.subt x) := opField_instrWord 4 x
theorem input : Statement .input := opField_instrWord 5 0
theorem output : Statement .output := opField_instrWord 6 0
theorem halt : Statement .halt := opField_instrWord 7 0
theorem skipCond (c : BitVec 2) : Statement (.skipCond c) := opField_instrWord 8 (condOperand c 0)
theorem jump (x : Addr) : Statement (.jump x) := opField_instrWord 9 x
theorem clear : Statement .clear := opField_instrWord 10 0
theorem addI (x : Addr) : Statement (.addI x) := opField_instrWord 11 x
theorem jumpI (x : Addr) : Statement (.jumpI x) := opField_instrWord 12 x

end Sys2Proof.Laws.EncodedOpcode
end

