-- ==== Sys2Proof/Machine/Assembler.lean ====
section
/-!
DEFINITION. The words the assembler produces (30_encoding.md section 6). The assembler is outside the block
(00_scope.md R5 (c)) and no rule of the machine rests on this file; it is the informative interface that says which
words and which loadable program a source program becomes. It starts from lines already read: how a line is spelled
(R81, R83), the listing, and the conditions whose cause the source does not state (N10) are left out (log 29). What
becomes of a line in error, where the spec does not say, is the model's choice (log 31).
-/

namespace Sys2Proof.Machine

/-- The assembler's diagnostics (R90). -/
inductive Diagnostic where
  | duplicateSymbol | undefinedSymbol | invalidLabelStart | unknownInstruction | missingInstruction
  | missingOperand | invalidLiteral (radix : Nat) | addressOutOfRange | misplacedOrigin
  | maxLinesExceeded | maxAddressExceeded
deriving DecidableEq, Repr

/-- A label, case-sensitive (R81). -/
abbrev Label := List Char

/-- The mnemonics that take an address operand (R72, R81). -/
inductive AddressOp where
  | jnS | load | store | add | subt | jump | addI | jumpI
deriving DecidableEq, Repr

/-- The mnemonics that take no operand (R93). -/
inductive PlainOp where
  | input | output | halt | clear
deriving DecidableEq, Repr

/-- The instruction of an address mnemonic (R74). -/
def AddressOp.instr (m : AddressOp) (x : Addr) : Instr :=
  match m with
  | .jnS => .jnS x
  | .load => .load x
  | .store => .store x
  | .add => .add x
  | .subt => .subt x
  | .jump => .jump x
  | .addI => .addI x
  | .jumpI => .jumpI x

/-- The instruction of an operand-less mnemonic (R74). -/
def PlainOp.instr : PlainOp → Instr
  | .input => .input
  | .output => .output
  | .halt => .halt
  | .clear => .clear

/-- An address operand: a hex literal or a symbol (R83). -/
inductive AsmOperand where
  | literal (n : Nat)
  | symbol (name : Label)
deriving DecidableEq, Repr

/-- What a statement line holds beside its label. An operand written after Input, Output, Halt or Clear has no form here:
whether it is an error is not in the source (R93, 91_not_in_source.md N8), and that the model reads no such line is its
choice (DESIGN CHOICE, log 31). -/
inductive AsmBody where
  | addressOp (m : AddressOp) (operand : AsmOperand)
  | plainOp (m : PlainOp)
  /-- SkipCond's operand is a hex value whose bits 11 to 10 are the condition (R81). -/
  | skipCond (n : Nat)
  | dec (n : Int)
  | oct (n : Int)
  | hex (n : Int)
  | unknown
deriving DecidableEq, Repr

/-- A source line, read (R81). Only a statement line holds a label: the grammar allows one before `ORG` and `END`, but the
spec does not say what address it would name, and that these lines hold none is the model's choice (DESIGN CHOICE,
log 31). -/
inductive AsmLine where
  /-- Nothing before the comment delimiter: no address (R87). -/
  | blank
  | org (n : Nat)
  | stmt (label : Option Label) (body : Option AsmBody)
  | endOfProgram
deriving DecidableEq, Repr

/-- A decimal or octal literal's word: the signed range, and the wrap window up to magnitude 65535 (R85). -/
def literalWord (n : Int) : Option Word := if n.natAbs ≤ 65535 then some (wordOf n) else none

/-- A hex literal's word: the pattern of its value (R80). Its range rule is not in the source: a value in the word range
is accepted, and beyond it acceptance is a free value (N9, log 29). -/
def hexLiteralWord (n : Int) : Option Word :=
  if inWordRange n || Config.hexLiteralAccepted n then some (wordOf n) else none

/-- An address literal, 0 to 4095 (R83). -/
def addressLiteral (n : Nat) : Option Addr := if n < Config.memWords then some (mask12 n) else none

/-- A word of code: ready, or waiting for its symbol's address (R89). -/
inductive AsmWord where
  | ready (w : Word)
  | pending (m : AddressOp) (name : Label)
deriving DecidableEq, Repr

/-- The word of a statement, or its diagnostic. SkipCond's ignored bits are written 0 whatever its operand gives there
(R77); that its operand is held to 0 to 4095 like an address literal is the model's choice (log 29). -/
def bodyWord : AsmBody → Except Diagnostic AsmWord
  | .addressOp m (.symbol name) => .ok (.pending m name)
  | .addressOp m (.literal n) =>
    match addressLiteral n with
    | some x => .ok (.ready (encode (m.instr x)))
    | none => .error .addressOutOfRange
  | .plainOp m => .ok (.ready (encode m.instr))
  | .skipCond n =>
    match addressLiteral n with
    | some x => .ok (.ready (encode (.skipCond (x.extractLsb' 10 2))))
    | none => .error .addressOutOfRange
  | .dec n => match literalWord n with | some w => .ok (.ready w) | none => .error (.invalidLiteral 10)
  | .oct n => match literalWord n with | some w => .ok (.ready w) | none => .error (.invalidLiteral 8)
  | .hex n => match hexLiteralWord n with | some w => .ok (.ready w) | none => .error (.invalidLiteral 16)
  | .unknown => .error .unknownInstruction

/-- What pass 1 has gathered. -/
structure Pass1 where
  /-- A statement has been seen, so that `ORG` is no longer legal (R82). -/
  begun : Bool
  /-- The address of the next statement. -/
  next : Nat
  /-- Symbols with their addresses, the first definition of each (R88). -/
  symbols : List (Label × Nat)
  code : List (Nat × AsmWord)
  errors : List Diagnostic
deriving DecidableEq, Repr

/-- The first definition of a symbol (R88). -/
def resolveSymbol (symbols : List (Label × Nat)) (name : Label) : Option Nat :=
  (symbols.find? fun c => decide (c.1 = name)).map Prod.snd

/-- A candidate label (R88): it may not begin with a digit, and a second definition is rejected. The line is processed
on either way: the spec says so of a duplicate, and of a label that begins with a digit it is the model's choice, which
drops that label (DESIGN CHOICE, log 31). -/
def Pass1.define (p : Pass1) (label : Option Label) : Pass1 :=
  match label with
  | none => p
  | some name =>
    if (name.head?.map Char.isDigit).getD false then { p with errors := p.errors ++ [.invalidLabelStart] }
    else if (resolveSymbol p.symbols name).isSome then { p with errors := p.errors ++ [.duplicateSymbol] }
    else { p with symbols := p.symbols ++ [(name, p.next)] }

/-- The address counter is past the last address: an instruction-producing line there is `MaxAddressExceeded` (R87). -/
def Pass1.full (p : Pass1) : Bool := decide (Config.memWords ≤ p.next)

/-- One instruction-producing line: its label, its word at the counter's address or its diagnostic, and the counter one
further (R87, R88). That a line whose statement is in error takes an address too is the model's choice; the spec says so
only of a line with a duplicate label (DESIGN CHOICE, log 31). -/
def Pass1.statement (p : Pass1) (label : Option Label) (body : AsmBody) : Pass1 :=
  let q := p.define label
  match bodyWord body with
  | .ok w => { q with next := p.next + 1, code := q.code ++ [(p.next, w)] }
  | .error d => { q with next := p.next + 1, errors := q.errors ++ [d] }

/-- Pass 1 (R82, R86 to R88): `ORG` only first, `END` ends it, and any instruction-producing line past 4095, in error or
not, stops it. That `ORG`'s operand is held to 0 to 4095 (log 29), that a label with nothing after it names the next
address, and that the line which stops the pass adds no label and no other diagnostic (log 31) are the model's choices. -/
def passOne : List AsmLine → Pass1 → Pass1
  | [], p => p
  | .blank :: ls, p => passOne ls p
  | .endOfProgram :: _, p => p
  | .org n :: ls, p =>
    if p.begun then passOne ls { p with errors := p.errors ++ [.misplacedOrigin] }
    else if n < Config.memWords then passOne ls { p with begun := true, next := n }
    else passOne ls { p with begun := true, errors := p.errors ++ [.addressOutOfRange] }
  | .stmt label none :: ls, p =>
    let q := { p with begun := true }.define label
    passOne ls { q with errors := q.errors ++ [.missingInstruction] }
  | .stmt label (some body) :: ls, p =>
    if p.full then { p with errors := p.errors ++ [.maxAddressExceeded] }
    else passOne ls ({ p with begun := true }.statement label body)

/-- Pass 2 for one word: its symbol's address in place, or `UndefinedSymbol` (R89). -/
def finishWord (symbols : List (Label × Nat)) : AsmWord → Except Diagnostic Word
  | .ready w => .ok w
  | .pending m name =>
    match resolveSymbol symbols name with
    | some a => .ok (encode (m.instr (mask12 a)))
    | none => .error .undefinedSymbol

/-- Pass 2 (R89): the resolved words and the diagnostics it adds. -/
def passTwo (symbols : List (Label × Nat)) : List (Nat × AsmWord) → Program × List Diagnostic
  | [] => ([], [])
  | (a, w) :: code =>
    let (p, ds) := passTwo symbols code
    match finishWord symbols w with
    | .ok v => ((a, v) :: p, ds)
    | .error d => (p, d :: ds)

/-- The two passes: a loadable program when there is no diagnostic, else the diagnostics (R89). The address counter
starts at 0 (R82). Pass 2 also runs on what an aborted pass 1 has gathered, and its diagnostics follow those of pass 1;
the spec does not say (DESIGN CHOICE, log 31). -/
def assemble (lines : List AsmLine) : Except (List Diagnostic) Program :=
  let p := passOne lines { begun := false, next := 0, symbols := [], code := [], errors := [] }
  let (prog, ds) := passTwo p.symbols p.code
  if p.errors ++ ds = [] then .ok prog else .error (p.errors ++ ds)

/-- The low `k` hexadecimal digits of a number, most significant first. -/
def hexDigits : Nat → Nat → List Nat
  | 0, _ => []
  | k + 1, n => hexDigits k (n / 16) ++ [n % 16]

/-- `to_hex3`: the 12-bit form, truncating (R91); digits as numbers 0 to 15. -/
def toHex3 (n : Int) : List Nat := hexDigits 3 (BitVec.ofInt 12 n).toNat

/-- `to_hex4`: the 16-bit form, two's complement for negative numbers (R91). -/
def toHex4 (n : Int) : List Nat := hexDigits 4 (BitVec.ofInt 16 n).toNat

end Sys2Proof.Machine
end

