-- ==== Sys2Proof/Tests/Slice0.lean ====
section
/-!
SUPPORT. The model's own tests. Expected values are those of spec/95_test_vectors.md (its row is named) or of the rule
named; words are written bit by bit from 30_encoding.md R74. After them, for every obligation with hypotheses, a
witness: a concrete state and operands that meet all of them together, one for each clause.
-/

namespace Sys2Proof.Tests

open Sys2Proof.Machine

/-- A running machine: PC, AC and memory given, everything else as after reset. -/
def machine (pc : Addr) (ac : Word) (mem : Memory) : State :=
  { State.reset with pc := pc, ac := ac, mem := mem, runState := .running }

/-- The same machine in another run state. -/
def inState (r : RunState) (s : State) : State := { s with runState := r }

/-- The next state of an outcome, if it has one. -/
def after (o : Host.Outcome State Fault Refusal) : Option State :=
  match o with
  | .next t => some t
  | .fault _ => none
  | .refused _ => none

/-- The fault of an outcome, if it has one. -/
def faultOf (o : Host.Outcome State Fault Refusal) : Option Fault :=
  match o with
  | .next _ => none
  | .fault r => some r
  | .refused _ => none

/-- The refusal of an outcome, if it has one. -/
def refusalOf (o : Host.Outcome State Fault Refusal) : Option Refusal :=
  match o with
  | .next _ => none
  | .fault _ => none
  | .refused r => some r

/-! ## Well-formedness: one ill-formed program for each check (R192); no instruction term is ill-formed -/

theorem test_wf_accepts : Program.wf [(0x100, 0x7000#16), (0x101, 1#16)] 0x100 = true := by decide
theorem test_wf_refuses_out_of_range : Program.wf [(4095, 0#16), (4096, 0#16)] 4095 = false := by decide
theorem test_wf_refuses_repeated_address : Program.wf [(1, 0#16), (2, 0#16), (1, 5#16)] 1 = false := by decide
theorem test_wf_refuses_other_start : Program.wf [(1, 0#16), (2, 0#16)] 2 = false := by decide
theorem test_wf_refuses_empty : Program.wf [] 0 = false := by decide
theorem test_memory_wf_refuses_zero : Memory.wf [(3, 0#16)] = false := by decide
theorem test_memory_wf_refuses_order : Memory.wf [(3, 1#16), (3, 2#16)] = false := by decide
theorem test_memory_wf_refuses_range : Memory.wf [(4096, 1#16)] = false := by decide

/-! ## Decoding: one word per constructor, bit by bit from R74 -/

theorem test_decode_jnS : decode 0b0000000000000111#16 = .instr (.jnS 0x007) := by decide
theorem test_decode_load : decode 0b0001000100000101#16 = .instr (.load 0x105) := by decide
theorem test_decode_store : decode 0b0010000000000110#16 = .instr (.store 0x006) := by decide
theorem test_decode_add : decode 0b0011100000000001#16 = .instr (.add 0x801) := by decide
theorem test_decode_subt : decode 0b0100000100001000#16 = .instr (.subt 0x108) := by decide
theorem test_decode_input : decode 0b0101000000000000#16 = .instr .input := by decide
theorem test_decode_output : decode 0b0110111111111111#16 = .instr .output := by decide
theorem test_decode_halt : decode 0b0111000000000001#16 = .instr .halt := by decide
theorem test_decode_skipCond : decode 0b1000100000000000#16 = .instr (.skipCond 0b10#2) := by decide
theorem test_decode_jump : decode 0b1001000100000000#16 = .instr (.jump 0x100) := by decide
theorem test_decode_clear : decode 0b1010111111111111#16 = .instr .clear := by decide
theorem test_decode_addI : decode 0b1011000000000101#16 = .instr (.addI 0x005) := by decide
theorem test_decode_jumpI : decode 0b1100111111111111#16 = .instr (.jumpI 0xFFF) := by decide
theorem test_decode_illegal_13 : decode 0b1101000000000000#16 = .illegalOpcode 13 := by decide
theorem test_decode_illegal_15 : decode 0b1111111111111111#16 = .illegalOpcode 15 := by decide
theorem test_encode_skipCond : encode (.skipCond 0b01#2) = 0x8400#16 := by decide
theorem test_encode_jumpI : encode (.jumpI 0x007) = 0xC007#16 := by decide
theorem test_decodeTableWord : decodeTableWord 16 0x1105 = some (.load 0x105) := by decide
theorem test_decodeTableWord_illegal : decodeTableWord 16 0xE123 = none := by decide

/-! ## Fetch (95_test_vectors.md F1 to F10) -/

theorem test_fetch_preload :
    (after (step (machine 0x020 0 [(0x020, 0x1105#16), (0x105, 7#16)]))).map
      (fun t => (t.mar, t.ir, t.mbr, t.pc, t.ac)) = some (0x105, 0x1105, 7, 0x021, 7) := by decide

theorem test_fetch_no_preload :
    (after (step { machine 0x020 0 [(0x020, 0x6000#16)] with mbr := 0x1234 })).map
      (fun t => (t.mar, t.mbr, t.pc)) = some (0x020, 0x1234, 0x021) := by decide

theorem test_fetch_illegal :
    (after (step (machine 0x010 0 [(0x010, 0xD000#16)]))).map
      (fun t => (t.mar, t.ir, t.pc, t.runState, t.errorKind)) =
      some (0x010, 0xD000, 0x010, .haltedAbnormal, .illegalOpcode) := by decide

theorem test_fetch_top :
    (after (step (machine 0xFFF 0 [(0x123, 0x42#16), (0xFFF, 0x1123#16)]))).map
      (fun t => (t.mar, t.mbr, t.pc, t.ac, t.errorKind)) =
      some (0x123, 0x42, 0x000, 0, .maxAddressExceeded) := by decide

theorem test_fetch_top_illegal :
    (after (step (machine 0xFFF 0 [(0xFFF, 0xF000#16)]))).map (fun t => (t.pc, t.errorKind)) =
      some (0xFFF, .illegalOpcode) := by decide

theorem test_fetch_top_condition :
    (after (step (machine 0xFFF 0 [(0xFFF, 0x8C00#16)]))).map (fun t => (t.pc, t.errorKind)) =
      some (0x000, .maxAddressExceeded) := by decide

theorem test_fetch_below_top :
    (after (step (machine 0xFFE 5 [(0xFFE, 0xA000#16)]))).map (fun t => (t.pc, t.ac, t.runState)) =
      some (0xFFF, 0, .running) := by decide

/-! ## Data transfer (T1 to T8) -/

theorem test_load_own_word :
    (after (step (machine 0x030 0 [(0x030, 0x1030#16)]))).map (·.ac) = some 0x1030 := by decide

theorem test_store :
    (after (step (machine 0x040 0xFFFF [(0x040, 0x2200#16), (0x200, 0x1111#16)]))).map
      (fun t => (t.mbr, t.memRead 0x200, t.ac)) = some (0xFFFF, 0xFFFF, 0xFFFF) := by decide

theorem test_store_next_cell :
    ((after (step (machine 0x040 0x7000 [(0x040, 0x2041#16)]))).bind (fun t => after (step t))).map
      (fun t => (t.pc, t.runState)) = some (0x042, .haltedNormal) := by decide

theorem test_clear_ignored_bits :
    (after (step (machine 0x040 0x1234 [(0x040, 0xAFFF#16)]))).map (fun t => (t.ac, t.mar, t.pc)) =
      some (0, 0x040, 0x041) := by decide

/-! ## Arithmetic (AD1 to AI4) -/

theorem test_add_overflow :
    (after (step (machine 0 0x7FFF [(0, 0x3010#16), (0x010, 1#16)]))).map
      (fun t => (t.ac, t.fatal, t.errorKind, t.runState)) =
      some (0x7FFF, true, .registerOverflow, .haltedAbnormal) := by decide

theorem test_add_extremes :
    (after (step (machine 0 0x7FFF [(0, 0x3010#16), (0x010, 0x8000#16)]))).map (fun t => (t.ac, t.fatal)) =
      some (0xFFFF, false) := by decide

theorem test_subt_order :
    (after (step (machine 0 5 [(0, 0x4010#16), (0x010, 7#16)]))).map (·.ac) = some 0xFFFE := by decide

theorem test_subt_overflow :
    (after (step (machine 0 0 [(0, 0x4010#16), (0x010, 0x8000#16)]))).map (fun t => (t.ac, t.errorKind)) =
      some (0, .registerOverflow) := by decide

theorem test_addI_masked_pointer :
    (after (step (machine 0 1 [(0, 0xB005#16), (5, 0xF006#16), (6, 2#16)]))).map
      (fun t => (t.mar, t.mbr, t.ac)) = some (0x006, 2, 3) := by decide

theorem test_addI_overflow :
    (after (step (machine 0 0x7FFF [(0, 0xB005#16), (5, 6#16), (6, 1#16)]))).map
      (fun t => (t.mar, t.mbr, t.ac, t.errorKind)) = some (0x006, 1, 0x7FFF, .registerOverflow) := by decide

/-! ## Input and output (OUT1, OUT2, IN1 to IN6) -/

theorem test_output_appends :
    (after (step { machine 0 0xFFFF [(0, 0x6000#16)] with output := 1, outputs := [1] })).map
      (fun t => (t.output, t.outputs)) = some (0xFFFF, [1, 0xFFFF]) := by decide

theorem test_input_blocks :
    (after (step (machine 0 9 [(0, 0x5000#16)]))).map (fun t => (t.pc, t.mar, t.runState, t.ac)) =
      some (1, 0, .blockedOnInput, 9) := by decide

theorem test_input_supplied_and_completed :
    ((after (hostStep (.supplyInput 0x8000) (inState .blockedOnInput (machine 1 9 [])))).bind
      (fun t => after (step t))).map (fun t => (t.ac, t.inputReady, t.runState, t.pc)) =
      some (0x8000, false, .running, 1) := by decide

theorem test_supply_refused_while_running :
    refusalOf (hostStep (.supplyInput 5) (machine 0 0 [])) = some (.notAdmitted (.supplyInput 5)) := by decide

theorem test_stop_while_blocked :
    ((after (hostStep .requestStop (inState .blockedOnInput (machine 1 9 [])))).bind
      (fun t => after (step t))).map (fun t => (t.runState, t.ac, t.fatal)) =
      some (.haltedByUser, 9, false) := by decide

/-! ## Control transfer (J1 to Q3) -/

theorem test_jnS :
    (after (step (machine 2 0 [(2, 0x0007#16)]))).map (fun t => (t.memRead 7, t.pc, t.mar, t.mbr)) =
      some (3, 8, 7, 0) := by decide

theorem test_jnS_top :
    (after (step (machine 0x010 0 [(0x010, 0x0FFF#16)]))).map (fun t => (t.memRead 0xFFF, t.pc)) =
      some (0x0011, 0x000) := by decide

theorem test_halt :
    (after (step (machine 3 0 [(3, 0x7000#16)]))).map (fun t => (t.pc, t.runState, t.fatal)) =
      some (4, .haltedNormal, false) := by decide

theorem test_skipCond_negative :
    (after (step (machine 0x010 0x8000 [(0x010, 0x83FF#16)]))).map (·.pc) = some 0x012 := by decide

theorem test_skipCond_wraps :
    (after (step (machine 0xFFE 1 [(0xFFE, 0x8800#16)]))).map (fun t => (t.pc, t.runState)) =
      some (0, .running) := by decide

theorem test_jump :
    (after (step (machine 0 0 [(0, 0x9100#16), (0x100, 0x4444#16)]))).map (fun t => (t.pc, t.mar, t.mbr)) =
      some (0x100, 0x100, 0x4444) := by decide

theorem test_jumpI_drops_high_bits :
    (after (step (machine 0 0 [(0, 0xC007#16), (7, 0x7123#16)]))).map (·.pc) = some 0x123 := by decide

/-! ## Run control and lifecycle (RC1 to RC9) -/

theorem test_step_from_reset : faultOf (step State.reset) = some .holdNoProgram := by decide

theorem test_withFetchWord_is_load_and_start :
    ((after (hostStep (.load [(0, 0x1105#16)] 0) State.reset)).bind
      (fun t => after (hostStep (.start false) t))) = some (State.reset.withFetchWord 16 0x1105) := by decide

theorem test_withFetchWord_runs :
    (after (step (State.reset.withFetchWord 16 0x1105))).map (fun t => (t.ir, t.mar, t.pc)) =
      some (0x1105, 0x105, 1) := by decide

theorem test_load_then_single_step_halt :
    (((after (hostStep (.load [(0x100, 0x7000#16)] 0x100) State.reset)).bind
      (fun t => after (hostStep (.start true) t))).bind (fun t => after (hostStep .step t))).map
      (fun t => (t.runState, t.pc)) = some (.haltedNormal, 0x101) := by decide

theorem test_single_step_pauses :
    (after (hostStep .step { inState .paused (machine 0 5 [(0, 0xA000#16)]) with singleStep := true })).map
      (fun t => (t.runState, t.ac, t.pc)) = some (.paused, 0, 1) := by decide

theorem test_restart_after_halt_refused :
    refusalOf (hostStep (.start false) (inState .haltedNormal State.reset)) = some (.notAdmitted (.start false)) := by
  decide

theorem test_host_read_before_reset :
    (match hostRead .ac (inState .uninitialized State.reset) with | .error r => some r | .ok _ => none) =
      some Fault.readBeforeReset := by decide

/-! ## The assembler's words (95_test_vectors.md P1, E1, E2, E3, E9) -/

theorem test_assemble_sum :
    assemble [.stmt none (some (.addressOp .load (.symbol ['X']))),
      .stmt none (some (.addressOp .add (.symbol ['Y']))), .stmt none (some (.addressOp .store (.symbol ['Z']))),
      .stmt none (some (.plainOp .halt)), .stmt (some ['X']) (some (.dec 5)), .stmt (some ['Y']) (some (.dec 7)),
      .stmt (some ['Z']) (some (.dec 0)), .endOfProgram] =
    .ok [(0, 0x1004#16), (1, 0x3005#16), (2, 0x2006#16), (3, 0x7000#16), (4, 5#16), (5, 7#16), (6, 0#16)] := by
  rfl

theorem test_assemble_origin :
    assemble [.blank, .org 0x100, .stmt none (some (.skipCond 0x400))] = .ok [(0x100, 0x8400#16)] := by rfl

theorem test_assemble_skipCond_ignored_bits : assemble [.stmt none (some (.skipCond 0x4FF))] = .ok [(0, 0x8400#16)] := by
  rfl

theorem test_assemble_hex : assemble [.stmt none (some (.hex 6))] = .ok [(0, 6#16)] := by rfl

theorem test_assemble_past_the_top :
    assemble [.org 0xFFF, .stmt none (some (.dec 1)), .stmt none (some .unknown), .stmt none (some .unknown)] =
      .error [.maxAddressExceeded] := by rfl

theorem test_assemble_misplaced_origin :
    assemble [.stmt none (some (.plainOp .clear)), .org 0x100] = .error [.misplacedOrigin] := by rfl

theorem test_assemble_duplicate_and_undefined :
    assemble [.stmt (some ['A']) (some (.dec 1)), .stmt (some ['A']) (some (.dec 2)),
      .stmt none (some (.addressOp .load (.symbol ['Q'])))] = .error [.duplicateSymbol, .undefinedSymbol] := by rfl

theorem test_literal_wrap : literalWord 65535 = some 0xFFFF#16 ∧ literalWord 32768 = some 0x8000#16 ∧
    literalWord 65536 = none := by decide

theorem test_hex_rendering : toHex3 0x1000 = [0, 0, 0] ∧ toHex4 (-1) = [15, 15, 15, 15] := by decide

/-! ## Witnesses: for each obligation with hypotheses, states and operands that meet them, one for each clause -/

theorem witness_IgnoredBitsHaveNoEffect : ∃ (s : State) (u v : BitVec 12), s.mem.wf = true ∧ s.Runs ∧ u ≠ v ∧
    u.extractLsb' 10 2 = v.extractLsb' 10 2 := ⟨machine 0xFFF 0 [(0xFFF, 1#16)], 0x000, 0x3FF, by decide⟩

theorem witness_SkipCondWordsTestTheAccumulator_ranges :
    ∃ a b c d e f g h : Word, a.toNat = 0x8000 ∧ b.toNat = 0x83FF ∧ c.toNat = 0x8400 ∧ d.toNat = 0x87FF ∧
      e.toNat = 0x8800 ∧ f.toNat = 0x8BFF ∧ g.toNat = 0x8C00 ∧ h.toNat = 0x8FFF :=
  ⟨0x8000, 0x83FF, 0x8400, 0x87FF, 0x8800, 0x8BFF, 0x8C00, 0x8FFF, by decide⟩

theorem witness_SkipCondWordsTestTheAccumulator_illegal : ∃ s : State, s.Runs ∧ s.pc ≠ 0xFFF#12 ∧
    0x8C00 ≤ (s.memRead s.pc).toNat ∧ (s.memRead s.pc).toNat ≤ 0x8FFF :=
  ⟨machine 0xFFE 0 [(0xFFE, 0x8C00#16)], by decide⟩

theorem witness_DecodeAndEncodeAgree : ∃ (i : Instr) (w : Word), i.wf = true ∧ decode w = .instr i ∧ encode i ≠ w :=
  ⟨.skipCond 2, 0x8BFF, by decide⟩

theorem witness_ReadGivesTheLastWrite : ∃ s : State, s.mem.wf = true ∧ s.memRead 0xFFF ≠ 0 :=
  ⟨machine 0 0 [(0, 7#16), (0xFFF, 1#16)], by decide⟩

theorem witness_OnlyStoreAndJnSChangeMemory_store : ∃ s t : State, s.mem.wf = true ∧ step s = .next t ∧
    t.memRead 0xFFF ≠ s.memRead 0xFFF := ⟨machine 0 5 [(0, 0x2FFF#16)], _, by decide, rfl, by decide⟩

theorem witness_OnlyStoreAndJnSChangeMemory_jnS : ∃ s t : State, s.mem.wf = true ∧ step s = .next t ∧
    t.memRead 0 ≠ s.memRead 0 := ⟨machine 1 5 [], _, by decide, rfl, by decide⟩

theorem witness_StoreIsSeenByTheNextFetch : ∃ (s : State) (x : Addr) (i : Instr), s.mem.wf = true ∧ s.Runs ∧
    s.Fetches (.store x) ∧ s.pc ≠ 0xFFF#12 ∧ x = s.pc + 1 ∧ x ≠ 0xFFF#12 ∧ decode s.ac = .instr i :=
  ⟨machine 0xFFD 0x7000 [(0xFFD, 0x2FFE#16)], 0xFFE, .halt, by decide⟩

theorem witness_StepRunsTheFetchedInstruction : ∃ (s : State) (i : Instr), s.Runs ∧ s.Fetches i ∧ i.wf = true ∧
    s.pc ≠ 0xFFF#12 := ⟨machine 0xFFE 0 [(0xFFE, 0x1105#16)], .load 0x105, by decide⟩

theorem witness_IllegalOpcodeHaltsAtDecode : ∃ s : State, s.Runs ∧ 0xD000 ≤ (s.memRead s.pc).toNat ∧ s.pc = 0xFFF#12 :=
  ⟨machine 0xFFF 0 [(0xFFF, 0xD000#16)], by decide⟩

theorem witness_FetchFromTheTopAddressHalts : ∃ (s : State) (i : Instr), s.Runs ∧ s.Fetches i ∧ s.pc = 0xFFF#12 :=
  ⟨machine 0xFFF 0 [(0xFFF, 0xA000#16)], .clear, by decide⟩

theorem witness_EveryErrorHasItsCause_opcode : ∃ s t : State, s.Runs ∧ s.fatal = false ∧ step s = .next t ∧
    t.fatal = true ∧ t.errorKind = .illegalOpcode :=
  ⟨machine 0xFFF 0 [(0xFFF, 0xD000#16)], _, by decide, by decide, rfl, by decide⟩

theorem witness_EveryErrorHasItsCause_top : ∃ s t : State, s.Runs ∧ s.fatal = false ∧ step s = .next t ∧
    t.fatal = true ∧ t.errorKind = .maxAddressExceeded :=
  ⟨machine 0xFFF 0 [(0xFFF, 0x8C00#16)], _, by decide, by decide, rfl, by decide⟩

theorem witness_EveryErrorHasItsCause_condition : ∃ s t : State, s.Runs ∧ s.fatal = false ∧ step s = .next t ∧
    t.fatal = true ∧ t.errorKind = .illegalCondition :=
  ⟨machine 0xFFE 0 [(0xFFE, 0x8C00#16)], _, by decide, by decide, rfl, by decide⟩

theorem witness_EveryErrorHasItsCause_add : ∃ s t : State, s.Runs ∧ s.fatal = false ∧ step s = .next t ∧
    t.fatal = true ∧ t.errorKind = .registerOverflow :=
  ⟨machine 0 0x7FFF [(0, 0x3001#16), (1, 1#16)], _, by decide, by decide, rfl, by decide⟩

theorem witness_EveryErrorHasItsCause_subt : ∃ s t : State, s.Runs ∧ s.fatal = false ∧ step s = .next t ∧
    t.fatal = true ∧ t.errorKind = .registerOverflow :=
  ⟨machine 0 0x8000 [(0, 0x4001#16), (1, 1#16)], _, by decide, by decide, rfl, by decide⟩

theorem witness_EveryErrorHasItsCause_addI : ∃ s t : State, s.Runs ∧ s.fatal = false ∧ step s = .next t ∧
    t.fatal = true ∧ t.errorKind = .registerOverflow :=
  ⟨machine 0 0x8000 [(0, 0xB001#16), (1, 2#16), (2, 0xFFFF#16)], _, by decide, by decide, rfl, by decide⟩

theorem witness_StopIsTakenBetweenCycles : ∃ a b c : State, a.stopRequested = true ∧ a.runState = .running ∧
    b.stopRequested = true ∧ b.runState = .paused ∧ c.stopRequested = true ∧ c.runState = .blockedOnInput :=
  ⟨{ machine 0 0 [] with stopRequested := true }, { inState .paused State.reset with stopRequested := true },
    { inState .blockedOnInput State.reset with stopRequested := true }, by decide⟩

theorem witness_MachineHoldsWhereNothingIsEnabled : ∃ s t u : State, step s = .fault .holdPaused ∧
    step t = .fault .holdAwaitingInput ∧ step u = .fault .holdSingleStep :=
  ⟨inState .paused State.reset, inState .blockedOnInput State.reset,
    { inState .blockedOnInput State.reset with inputReady := true, singleStep := true }, rfl, rfl, rfl⟩

theorem witness_SuppliedInputCompletes : ∃ s : State, s.runState = .blockedOnInput ∧ s.inputReady = true ∧
    s.singleStep = false ∧ s.stopRequested = false :=
  ⟨{ inState .blockedOnInput State.reset with inputReady := true, input := 42 }, by decide⟩

theorem witness_ExecStoreWritesTheCellAtMar : ∃ s : State, s.mem.wf = true ∧ s.mar = 0xFFF#12 ∧ s.ac ≠ 0 :=
  ⟨{ machine 1 5 [(0, 0x2FFF#16)] with mar := 0xFFF }, by decide⟩

theorem witness_ExecAddIsExactOrOverflows : ∃ a b c d : State,
    a.ac.toInt + a.mbr.toInt = -32768 ∧ b.ac.toInt + b.mbr.toInt = 32767 ∧
      c.ac.toInt + c.mbr.toInt = -32769 ∧ d.ac.toInt + d.mbr.toInt = 32768 :=
  ⟨{ machine 0 0x8000 [] with mbr := 0 }, { machine 0 0x7FFE [] with mbr := 1 },
    { machine 0 0x8000 [] with mbr := 0xFFFF }, { machine 0 0x7FFF [] with mbr := 1 }, by decide⟩

theorem witness_ExecSubtIsExactOrOverflows : ∃ a b c d : State,
    a.ac.toInt - a.mbr.toInt = -32768 ∧ b.ac.toInt - b.mbr.toInt = 32767 ∧
      c.ac.toInt - c.mbr.toInt = -32769 ∧ d.ac.toInt - d.mbr.toInt = 32768 :=
  ⟨{ machine 0 0xFFFF [] with mbr := 0x7FFF }, { machine 0 0xFFFF [] with mbr := 0x8000 },
    { machine 0 0x8000 [] with mbr := 1 }, { machine 0 0 [] with mbr := 0x8000 }, by decide⟩

theorem witness_ExecAddIAddsThroughThePointer : ∃ a b c d : State,
    a.ac.toInt + (a.memRead (a.mbr.extractLsb' 0 12)).toInt = -32768 ∧
      b.ac.toInt + (b.memRead (b.mbr.extractLsb' 0 12)).toInt = 32767 ∧
      c.ac.toInt + (c.memRead (c.mbr.extractLsb' 0 12)).toInt = -32769 ∧
      d.ac.toInt + (d.memRead (d.mbr.extractLsb' 0 12)).toInt = 32768 :=
  ⟨{ machine 0 0x8000 [] with mbr := 0xF005 }, { machine 0 0x7FFE [(5, 1#16)] with mbr := 0xF005 },
    { machine 0 0x8000 [(0xFFF, 0xFFFF#16)] with mbr := 0x0FFF }, { machine 0 0x7FFF [(5, 1#16)] with mbr := 5 },
    by decide⟩

theorem witness_ExecJnSStoresTheReturnAddress : ∃ s : State, s.mem.wf = true ∧ s.pc = 0xFFF#12 :=
  ⟨machine 0xFFF 0 [(0xFFE, 0x0FFF#16)], by decide⟩

theorem witness_ExecHaltEndsTheRun : ∃ s t : State, s.fatal = false ∧ t.fatal = true :=
  ⟨machine 1 0 [], { machine 1 0 [] with fatal := true }, by decide⟩

theorem witness_ExecSkipCondSkipsOnTheSignOfAc : ∃ a b c : State, a.ac.toInt = -1 ∧ b.ac.toInt = 0 ∧ c.ac.toInt = 1 :=
  ⟨machine 1 0xFFFF [], machine 1 0 [], machine 0xFFF 1 [], by decide⟩

theorem witness_CycleOfLoad : ∃ (s t : State) (x y : Addr), s.Runs ∧ s.memRead s.pc = instrWord 1 x ∧ s.pc ≠ 0xFFF#12 ∧
    t.Runs ∧ t.memRead t.pc = instrWord 1 y ∧ t.pc = 0xFFF#12 :=
  ⟨machine 0xFFE 0 [(0xFFE, 0x1105#16)], machine 0xFFF 0 [(0xFFF, 0x1105#16)], 0x105, 0x105, by decide⟩

theorem witness_CycleOfStore : ∃ (s t : State) (x y : Addr), s.mem.wf = true ∧ s.Runs ∧
    s.memRead s.pc = instrWord 2 x ∧ s.pc ≠ 0xFFF#12 ∧
    t.mem.wf = true ∧ t.Runs ∧ t.memRead t.pc = instrWord 2 y ∧ t.pc = 0xFFF#12 :=
  ⟨machine 0xFFE 5 [(0xFFE, 0x2FFE#16)], machine 0xFFF 5 [(0xFFF, 0x2105#16)], 0xFFE, 0x105, by decide⟩

theorem witness_CycleOfClear : ∃ (s t : State) (u v : BitVec 12), s.Runs ∧ s.memRead s.pc = instrWord 10 u ∧
    s.pc ≠ 0xFFF#12 ∧ t.Runs ∧ t.memRead t.pc = instrWord 10 v ∧ t.pc = 0xFFF#12 :=
  ⟨machine 0xFFE 5 [(0xFFE, 0xAFFF#16)], machine 0xFFF 5 [(0xFFF, 0xA000#16)], 0xFFF, 0, by decide⟩

theorem witness_CycleOfInput : ∃ (s t : State) (u v : BitVec 12), s.Runs ∧ s.memRead s.pc = instrWord 5 u ∧
    s.pc ≠ 0xFFF#12 ∧ s.inputReady = false ∧ t.Runs ∧ t.memRead t.pc = instrWord 5 v ∧ t.pc = 0xFFF#12 :=
  ⟨machine 0xFFE 5 [(0xFFE, 0x5FFF#16)], machine 0xFFF 5 [(0xFFF, 0x5000#16)], 0xFFF, 0, by decide⟩

theorem witness_CycleOfOutput : ∃ (s t : State) (u v : BitVec 12), s.Runs ∧ s.memRead s.pc = instrWord 6 u ∧
    s.pc ≠ 0xFFF#12 ∧ t.Runs ∧ t.memRead t.pc = instrWord 6 v ∧ t.pc = 0xFFF#12 :=
  ⟨machine 0xFFE 5 [(0xFFE, 0x6FFF#16)], machine 0xFFF 5 [(0xFFF, 0x6000#16)], 0xFFF, 0, by decide⟩

theorem witness_CycleOfAdd : ∃ (s t : State) (x y : Addr), s.Runs ∧ s.memRead s.pc = instrWord 3 x ∧
    s.pc ≠ 0xFFF#12 ∧ s.ac.toInt + (s.memRead x).toInt = 32767 ∧ t.Runs ∧ t.memRead t.pc = instrWord 3 y ∧
    t.pc ≠ 0xFFF#12 ∧ t.ac.toInt + (t.memRead y).toInt = 32768 :=
  ⟨machine 0 0x7FFE [(0, 0x3FFF#16), (0xFFF, 1#16)], machine 0 0x7FFF [(0, 0x3FFF#16), (0xFFF, 1#16)], 0xFFF, 0xFFF,
    by decide⟩

theorem witness_CycleOfSubt : ∃ (s t : State) (x y : Addr), s.Runs ∧ s.memRead s.pc = instrWord 4 x ∧
    s.pc ≠ 0xFFF#12 ∧ s.ac.toInt - (s.memRead x).toInt = -32768 ∧ t.Runs ∧ t.memRead t.pc = instrWord 4 y ∧
    t.pc ≠ 0xFFF#12 ∧ t.ac.toInt - (t.memRead y).toInt = -32769 :=
  ⟨machine 0 0x8001 [(0, 0x4FFF#16), (0xFFF, 1#16)], machine 0 0x8000 [(0, 0x4FFF#16), (0xFFF, 1#16)], 0xFFF, 0xFFF,
    by decide⟩

theorem witness_CycleOfAddI : ∃ (s t : State) (x y p q : Addr), s.Runs ∧ s.memRead s.pc = instrWord 11 x ∧
    s.pc ≠ 0xFFF#12 ∧ p = (s.memRead x).extractLsb' 0 12 ∧ s.ac.toInt + (s.memRead p).toInt = 32767 ∧
    t.Runs ∧ t.memRead t.pc = instrWord 11 y ∧ t.pc ≠ 0xFFF#12 ∧ q = (t.memRead y).extractLsb' 0 12 ∧
    t.ac.toInt + (t.memRead q).toInt = 32768 :=
  ⟨machine 0 0x7FFE [(0, 0xB005#16), (5, 0xF006#16), (6, 1#16)],
    machine 0 0x7FFF [(0, 0xB005#16), (5, 0xF006#16), (6, 1#16)], 5, 5, 6, 6, by decide⟩

theorem witness_CycleOfJnS : ∃ (s : State) (x : Addr), s.mem.wf = true ∧ s.Runs ∧ s.memRead s.pc = instrWord 0 x ∧
    s.pc ≠ 0xFFF#12 := ⟨machine 0xFFE 0 [(0xFFE, 0x0FFF#16)], 0xFFF, by decide⟩

theorem witness_CycleOfHalt : ∃ (s : State) (u : BitVec 12), s.Runs ∧ s.memRead s.pc = instrWord 7 u ∧
    s.pc ≠ 0xFFF#12 ∧ s.fatal = false ∧ s.ready = false := ⟨machine 0xFFE 0 [(0xFFE, 0x7001#16)], 1, by decide⟩

theorem witness_CycleOfSkipCond_taken : ∃ (s : State) (c : BitVec 2) (u : BitVec 10), s.Runs ∧
    s.memRead s.pc = instrWord 8 (condOperand c u) ∧ s.pc ≠ 0xFFF#12 ∧ c ≠ 3 ∧ c = 2 ∧ 0 < s.ac.toInt :=
  ⟨machine 0xFFE 1 [(0xFFE, 0x8BFF#16)], 2, 0x3FF, by decide⟩

theorem witness_CycleOfSkipCond_not_taken : ∃ (s : State) (c : BitVec 2) (u : BitVec 10), s.Runs ∧
    s.memRead s.pc = instrWord 8 (condOperand c u) ∧ s.pc ≠ 0xFFF#12 ∧ c ≠ 3 ∧
    ¬((c = 0 ∧ s.ac.toInt < 0) ∨ (c = 1 ∧ s.ac = 0) ∨ (c = 2 ∧ 0 < s.ac.toInt)) :=
  ⟨machine 0 0 [(0, 0x8000#16)], 0, 0, by decide⟩

theorem witness_CycleOfJump : ∃ (s : State) (x : Addr), s.Runs ∧ s.memRead s.pc = instrWord 9 x ∧ s.pc ≠ 0xFFF#12 :=
  ⟨machine 0xFFE 0 [(0xFFE, 0x9FFF#16)], 0xFFF, by decide⟩

theorem witness_CycleOfJumpI : ∃ (s : State) (x : Addr), s.Runs ∧ s.memRead s.pc = instrWord 12 x ∧ s.pc ≠ 0xFFF#12 :=
  ⟨machine 0xFFE 0 [(0xFFE, 0xCFFF#16), (0xFFF, 0xF123#16)], 0xFFF, by decide⟩

theorem witness_JumpIReturnsFromJnS : ∃ (s u v : State) (x : Addr), s.mem.wf = true ∧ s.Runs ∧ s.Fetches (.jnS x) ∧
    s.pc ≠ 0xFFF#12 ∧ step s = .next u ∧ v.Runs ∧ v.Fetches (.jumpI x) ∧ v.pc ≠ 0xFFF#12 ∧
    v.memRead x = u.memRead x :=
  ⟨machine 2 0 [(2, 0x0007#16)], _, machine 8 0 [(7, 3#16), (8, 0xC007#16)], 7, by decide, by decide, by decide,
    by decide, rfl, by decide⟩

theorem witness_InputRegisterIsTheHosts : ∃ s t u v w : State, exec .clear s = .next t ∧ step s = .next u ∧
    hostStep (.supplyInput 0xFFFF) (inState .blockedOnInput s) = .next v ∧ hostStep .reset s = .next w ∧
    s.runState ≠ .blockedOnInput :=
  ⟨machine 0 5 [(0, 0xA000#16)], _, _, _, _, rfl, rfl, rfl, rfl, by decide⟩

theorem witness_InputRegisterIsTheHosts_step : ∃ s t : State, s.runState ≠ .blockedOnInput ∧
    hostStep .step s = .next t :=
  ⟨{ inState .paused (machine 0 5 [(0, 0xA000#16)]) with singleStep := true }, _, by decide, rfl⟩

theorem witness_OutputRegisterIsNeverRead : ∃ s t u v : State, step s = .next t ∧ t.output ≠ s.output ∧
    hostStep .step { inState .paused s with singleStep := true } = .next u ∧ u.output ≠ s.output ∧
    hostStep .reset s = .next v ∧ s.runState ≠ .uninitialized :=
  ⟨machine 0 5 [(0, 0x6000#16)], _, _, _, rfl, by decide, rfl, by decide, rfl, by decide⟩

theorem witness_OutputSequenceOnlyGrows : ∃ s t u : State, step s = .next t ∧ t.outputs ≠ s.outputs ∧
    HostOp.step ≠ .reset ∧ hostStep .step { inState .paused s with singleStep := true } = .next u ∧
    u.outputs ≠ s.outputs :=
  ⟨{ machine 0 5 [(0, 0x6000#16)] with output := 1, outputs := [1] }, _, _, rfl, by decide, by decide, rfl, by decide⟩

theorem witness_ErrorsAreFinal : ∃ s : State, s.runState = .haltedAbnormal ∧ s.fatal = true :=
  ⟨inState .haltedAbnormal { machine 0 0 [] with fatal := true, errorKind := .illegalOpcode }, by decide⟩

theorem witness_ErrorsAreFinal_steps : ∃ s t u v : State, s.fatal = true ∧ step s = .next t ∧ u.fatal = true ∧
    HostOp.resume ≠ .reset ∧ hostStep .resume u = .next v :=
  ⟨{ machine 0 0 [] with fatal := true }, _, { inState .paused (machine 0 0 []) with fatal := true }, _, by decide, rfl,
    by decide, by decide, rfl⟩

theorem witness_AddressOutOfRangeIsNeverRaised : ∃ s t u : State, s.errorKind ≠ .addressOutOfRange ∧
    step s = .next t ∧ hostStep .requestStop s = .next u :=
  ⟨machine 0xFFF 0 [], _, _, by decide, rfl, rfl⟩

theorem witness_LoadPlacesTheProgram : ∃ (s : State) (p : Program) (start : Nat), s.mem.wf = true ∧
    s.runState = .noProgramLoaded ∧ p.wf start = true ∧ (0xFFF, 0x7000#16) ∈ p ∧ ∀ c ∈ p, c.1 ≠ (0x100 : Addr).toNat :=
  ⟨{ State.reset with mem := [(0x100, 9#16)] }, [(0xFFF, 0x7000#16), (0, 1#16)], 0xFFF, by decide⟩

theorem witness_HostOperationsAdmitted : admitted .reset State.created = true ∧
    admitted (.load [(0xFFF, 0#16)] 0xFFF) State.reset = true ∧
    admitted (.start false) { inState .haltedNormal State.reset with ready := true } = true ∧
    admitted .step { inState .paused State.reset with singleStep := true } = true ∧
    admitted .step { inState .blockedOnInput State.reset with singleStep := true, inputReady := true } = true ∧
    admitted .resume (inState .paused State.reset) = true ∧ admitted .requestStop (machine 0 0 []) = true ∧
    admitted (.supplyInput 0) (inState .blockedOnInput State.reset) = true := by decide

theorem witness_HostOperationsRefused :
    admitted (.load [(0x1000, 0#16)] 0x1000) State.reset = false ∧ admitted (.load [] 0) State.reset = false ∧
    admitted (.load [(1, 0#16)] 1) (machine 0 0 []) = false ∧
    admitted (.start true) (inState .haltedNormal State.reset) = false ∧
    admitted .step (inState .paused State.reset) = false ∧ admitted .resume (machine 0 0 []) = false ∧
    admitted .requestStop State.reset = false ∧
    admitted (.supplyInput 0) { inState .blockedOnInput State.reset with inputReady := true } = false := by decide

theorem witness_SingleStepIsOneCycle : ∃ s t : State, s.runState = .paused ∧ s.singleStep = true ∧
    s.stopRequested = false ∧ t.runState = .blockedOnInput ∧ t.inputReady = true ∧ t.singleStep = true ∧
    t.stopRequested = false :=
  ⟨{ inState .paused State.reset with singleStep := true },
    { inState .blockedOnInput State.reset with singleStep := true, inputReady := true }, by decide⟩

theorem witness_HostControlEffects : ∃ a b c d : State, a.runState = .haltedNormal ∧ a.ready = true ∧
    b.runState = .paused ∧ c.runState = .running ∧ d.runState = .blockedOnInput ∧ d.inputReady = false :=
  ⟨{ inState .haltedNormal State.reset with ready := true }, inState .paused State.reset, machine 0 0 [],
    inState .blockedOnInput State.reset, by decide⟩

theorem witness_BootRunsTheFirstWord : ∃ (p : Program) (start : Nat) (w : Word) (i : Instr), p.wf start = true ∧
    p.head? = some (start, w) ∧ decode w = .instr i ∧ start ≠ 4095 :=
  ⟨[(4094, 0xA000#16), (0, 1#16)], 4094, 0xA000, .clear, by decide⟩

theorem witness_StepKeepsMemoryCanonical : ∃ s t : State, s.mem.wf = true ∧ step s = .next t ∧ t.mem ≠ s.mem :=
  ⟨machine 0 0 [(0, 0x2FFF#16), (0xFFF, 1#16)], _, by decide, rfl, by decide⟩

theorem witness_StepKeepsTheInvariant : ∃ s t : State, s.Inv ∧ step s = .next t ∧ t ≠ s :=
  ⟨machine 0 5 [(0, 0x6000#16)], _, by decide, rfl, by decide⟩

theorem witness_HostOperationsKeepTheInvariant : ∃ (op : HostOp) (s t : State), s.Inv ∧ hostStep op s = .next t ∧ t ≠ s :=
  ⟨.load [(0xFFF, 0x7000#16)] 0xFFF, State.reset, _, by decide, rfl, by decide⟩

theorem witness_ReachableStatesMeetTheInvariant : Reachable State.created ∧ Reachable State.reset :=
  ⟨.created, .host .reset .created rfl⟩

end Sys2Proof.Tests
end

/-! INPUT and OUTPUT belong to the host (10_state.md R26, R27): who writes them, transition by transition, and that no
cycle but the completion of an Input reads either. The second part is said once for both registers: a step and a
single-step call are blind to the two ports, and each obligation takes its own port from that. -/

namespace Sys2Proof.Machine

/-! ## Who writes INPUT and OUTPUT -/

/-- A cycle with a fetch never writes INPUT (R26). -/
theorem fetchExecute_input {s t : State} (h : fetchExecute s = .next t) : t.input = s.input := by
  rcases fetchExecute_cases s with ⟨_, _, hf⟩ | ⟨i, _, _, hf⟩ | ⟨i, _, _, hf⟩ <;> rw [hf] at h
  · cases h; rfl
  · cases h; rfl
  · obtain ⟨_, hinput, _⟩ := exec_frame h
    exact hinput

/-- A cycle with a fetch writes OUTPUT only if it fetches Output (R27). -/
theorem fetchExecute_output {s t : State} (h : fetchExecute s = .next t) :
    t.output = s.output ∨ (s.Fetches .output ∧ t.output = s.ac) := by
  rcases fetchExecute_cases s with ⟨_, _, hf⟩ | ⟨i, _, _, hf⟩ | ⟨i, hi, _, hf⟩ <;> rw [hf] at h
  · cases h; exact .inl rfl
  · cases h; exact .inl rfl
  · rcases exec_outputs h with ⟨hout, _⟩ | ⟨rfl, hout, _⟩
    · exact .inl hout
    · exact .inr ⟨hi, hout⟩

theorem cycle_input {s t : State} (h : cycle s = .next t) : t.input = s.input := by
  rcases cycle_cases h with ⟨_, _, rfl⟩ | ⟨_, hf⟩
  · rfl
  · exact fetchExecute_input hf

theorem cycle_output {s t : State} (h : cycle s = .next t) :
    t.output = s.output ∨ (s.runState = .running ∧ s.Fetches .output ∧ t.output = s.ac) := by
  rcases cycle_cases h with ⟨_, _, rfl⟩ | ⟨hr, hf⟩
  · exact .inl rfl
  · exact (fetchExecute_output hf).imp_right fun hout => ⟨hr, hout⟩

theorem step_input {s t : State} (h : step s = .next t) : t.input = s.input := by
  rcases step_cases h with ⟨_, _, rfl⟩ | ⟨_, _, hc⟩
  · rfl
  · exact cycle_input hc

theorem step_output {s t : State} (h : step s = .next t) :
    t.output = s.output ∨ (s.Runs ∧ s.Fetches .output ∧ t.output = s.ac) := by
  rcases step_cases h with ⟨_, _, rfl⟩ | ⟨hstop, hsingle, hc⟩
  · exact .inl rfl
  · exact (cycle_output hc).imp_right fun ⟨hr, hout⟩ => ⟨⟨hr, hsingle, hstop⟩, hout⟩

/-- The unpausing of a single-step call touches the run state alone (R194). -/
theorem unpause_eq (s : State) : ∃ r, unpause s = s.setRunState r := by
  by_cases h : s.runState = .paused
  · exact ⟨.running, unpause_of_paused h⟩
  · exact ⟨s.runState, unpause_of_ne h⟩

/-- The pausing after a single-step call touches the run state alone (R194). -/
theorem pauseAgain_eq (s : State) : ∃ r, pauseAgain s = s.setRunState r := by
  by_cases h : s.runState = .running
  · exact ⟨.paused, pauseAgain_of_running h⟩
  · exact ⟨s.runState, pauseAgain_of_ne h⟩

theorem singleStepCycle_input {s t : State} (h : singleStepCycle s = .next t) : t.input = s.input := by
  obtain ⟨u, hc, rfl⟩ := singleStepCycle_cases h
  obtain ⟨r, hr⟩ := unpause_eq s
  obtain ⟨r', hr'⟩ := pauseAgain_eq u
  rw [hr] at hc
  rw [hr']
  have hinput := cycle_input hc
  exact hinput

theorem singleStepCycle_output {s t : State} (h : singleStepCycle s = .next t) :
    t.output = s.output ∨ (s.Fetches .output ∧ t.output = s.ac) := by
  obtain ⟨u, hc, rfl⟩ := singleStepCycle_cases h
  obtain ⟨r, hr⟩ := unpause_eq s
  obtain ⟨r', hr'⟩ := pauseAgain_eq u
  rw [hr] at hc
  rw [hr']
  exact (cycle_output hc).imp_right fun ⟨_, hout⟩ => hout

/-- A host operation writes INPUT only as `reset` or `supply_input` (R26). -/
theorem hostStep_input {op : HostOp} {s t : State} (h : hostStep op s = .next t) :
    (op = .reset ∧ t.input = 0) ∨ (∃ v, op = .supplyInput v ∧ t.input = v) ∨
      ((∀ v, op ≠ .supplyInput v) ∧ op ≠ .reset ∧ t.input = s.input) := by
  obtain ⟨-, he⟩ := hostStep_cases h
  cases op
  case reset => cases he; exact .inl ⟨rfl, rfl⟩
  case supplyInput v => cases he; exact .inr (.inl ⟨v, rfl, rfl⟩)
  case step => exact .inr (.inr ⟨by simp, by simp, singleStepCycle_input he⟩)
  all_goals
    cases he
    exact .inr (.inr ⟨by simp, by simp, rfl⟩)

/-- A host operation writes OUTPUT only as `reset` or as a single-step call that fetches Output (R27). -/
theorem hostStep_output {op : HostOp} {s t : State} (h : hostStep op s = .next t) :
    t.output = s.output ∨ (op = .reset ∧ t.output = 0) ∨ (op = .step ∧ s.Fetches .output ∧ t.output = s.ac) := by
  obtain ⟨-, he⟩ := hostStep_cases h
  cases op
  case reset => cases he; exact .inr (.inl ⟨rfl, rfl⟩)
  case step => exact (singleStepCycle_output he).imp_right fun hout => .inr ⟨rfl, hout⟩
  all_goals
    cases he
    exact .inl rfl

/-! ## Who reads INPUT and OUTPUT -/

/-- The same state with other words in the two ports. -/
def State.withPorts (s : State) (a b : Word) : State := { s with input := a, output := b }

/-- In the state `s` the transition `f` does not read the ports: with the word `a` in INPUT and any word in OUTPUT it comes
to the same next state, but for `a` still in INPUT, and for OUTPUT, which is as in that next state where it began as
in `s`. -/
def BlindToPorts (f : State → Host.Outcome State Fault Refusal) (s : State) (a : Word) : Prop :=
  ∀ (b : Word) (t : State), f s = .next t →
    ∃ b', (b = s.output → b' = t.output) ∧ f (s.withPorts a b) = .next (t.withPorts a b')

/-- With OUTPUT as it is, a blind transition differs in INPUT alone. -/
theorem BlindToPorts.next_of_input {f : State → Host.Outcome State Fault Refusal} {s t : State} {a : Word}
    (hf : BlindToPorts f s a) (h : f s = .next t) :
    f { s with input := a } = .next { t with input := a } := by
  obtain ⟨b', hb, ht⟩ := hf s.output t h
  cases hb rfl
  exact ht

/-- With INPUT as it is, and kept, a blind transition differs in OUTPUT alone. -/
theorem BlindToPorts.next_of_output {f : State → Host.Outcome State Fault Refusal} {s t : State}
    (hf : BlindToPorts f s s.input) (h : f s = .next t) (hin : t.input = s.input) (b : Word) :
    ∃ b', f { s with output := b } = .next { t with output := b' } := by
  obtain ⟨b', _, ht⟩ := hf b t h
  have hport : t.withPorts s.input b' = { t with output := b' } := by rw [← hin]; rfl
  exact ⟨b', ht.trans (congrArg _ hport)⟩

theorem aluResult_withPorts (s : State) (a b : Word) (n : Int) :
    (s.withPorts a b).aluResult n = (s.aluResult n).withPorts a b := by
  unfold State.aluResult
  split_ifs <;> rfl

/-- Every instruction but Output leaves the ports aside. -/
theorem exec_withPorts {i : Instr} {s t : State} (hi : i ≠ .output) (h : exec i s = .next t) (a b : Word) :
    exec i (s.withPorts a b) = .next (t.withPorts a b) := by
  cases i
  case output => exact absurd rfl hi
  case skipCond c =>
    rcases execSkipCond_cases h with ⟨hc, rfl⟩ | ⟨hc, rfl⟩ | ⟨hc, rfl⟩ <;>
      simp only [exec, execSkipCond, State.withPorts, hc] <;> rfl
  case add x => cases h; exact congrArg _ (aluResult_withPorts _ a b _)
  case subt x => cases h; exact congrArg _ (aluResult_withPorts _ a b _)
  case addI x => cases h; exact congrArg _ (aluResult_withPorts (s.readThrough (pointee s.mbr)) a b _)
  all_goals
    cases h
    rfl

theorem exec_blindToPorts (i : Instr) (s : State) (a : Word) : BlindToPorts (exec i) s a := by
  intro b t h
  by_cases hi : i = .output
  · subst hi
    cases h
    exact ⟨s.ac, fun _ => rfl, rfl⟩
  · rcases exec_outputs h with ⟨hout, _⟩ | ⟨ho, _⟩
    · exact ⟨b, fun hb => hb.trans hout.symm, exec_withPorts hi h a b⟩
    · exact absurd ho hi

theorem fetchExecute_of_illegal {s : State} {op : BitVec 4} (h : decode (s.memRead s.pc) = .illegalOpcode op) :
    fetchExecute s = .next (atIllegalOpcode s) := by
  rw [fetchExecute, fetch_illegal h]

theorem fetchExecute_of_top {s : State} {i : Instr} (h : s.Fetches i) (hp : s.pc = 4095#12) :
    fetchExecute s = .next (atTopAddress s i) := by
  rw [fetchExecute, fetch_top h hp]

theorem fetchExecute_of_ready {s : State} {i : Instr} (h : s.Fetches i) (hp : s.pc ≠ 4095#12) :
    fetchExecute s = exec i (s.atExecute i) := by
  rw [fetchExecute, fetch_ready h hp]

theorem fetchExecute_blindToPorts (s : State) (a : Word) : BlindToPorts fetchExecute s a := by
  intro b t h
  rcases fetchExecute_cases s with ⟨op, hd, hf⟩ | ⟨i, hi, hp, hf⟩ | ⟨i, hi, hp, hf⟩ <;> rw [hf] at h
  · cases h
    exact ⟨b, id, fetchExecute_of_illegal (s := s.withPorts a b) hd⟩
  · cases h
    exact ⟨b, id, fetchExecute_of_top (s := s.withPorts a b) hi hp⟩
  · rw [fetchExecute_of_ready (s := s.withPorts a b) hi hp]
    exact exec_blindToPorts i (s.atExecute i) a b t h

theorem cycle_of_running {s : State} (h : s.runState = .running) : cycle s = fetchExecute s := by
  simp [cycle, cycleDefined, h]

theorem cycle_of_supplied {s : State} (h : s.runState = .blockedOnInput) (hi : s.inputReady = true) :
    cycle s = .next (completeInput s) := by
  simp [cycle, cycleDefined, h, hi]

/-- The one reader of INPUT is the completion of a blocked Input (R26, R142). -/
theorem cycle_blindToPorts {s : State} {a : Word} (ha : s.runState = .blockedOnInput → a = s.input) :
    BlindToPorts cycle s a := by
  intro b t h
  rcases cycle_cases h with ⟨hr, hready, rfl⟩ | ⟨hr, hf⟩
  · cases ha hr
    exact ⟨b, id, cycle_of_supplied (s := s.withPorts s.input b) hr hready⟩
  · rw [cycle_of_running (s := s.withPorts a b) hr]
    exact fetchExecute_blindToPorts s a b t hf

theorem step_blindToPorts {s : State} {a : Word} (ha : s.runState = .blockedOnInput → a = s.input) :
    BlindToPorts step s a := by
  intro b t h
  have hstop : stopEnabled (s.withPorts a b) = stopEnabled s := rfl
  have hrun : runEnabled (s.withPorts a b) = runEnabled s := rfl
  unfold step runControl at h ⊢
  rw [hstop, hrun]
  split_ifs at h ⊢
  · cases h
    exact ⟨b, id, rfl⟩
  · exact cycle_blindToPorts ha b t h

theorem unpause_withPorts (s : State) (a b : Word) : unpause (s.withPorts a b) = (unpause s).withPorts a b := by
  by_cases h : s.runState = .paused
  · rw [unpause_of_paused h, unpause_of_paused (s := s.withPorts a b) h]; rfl
  · rw [unpause_of_ne h, unpause_of_ne (s := s.withPorts a b) h]

theorem pauseAgain_withPorts (s : State) (a b : Word) :
    pauseAgain (s.withPorts a b) = (pauseAgain s).withPorts a b := by
  by_cases h : s.runState = .running
  · rw [pauseAgain_of_running h, pauseAgain_of_running (s := s.withPorts a b) h]; rfl
  · rw [pauseAgain_of_ne h, pauseAgain_of_ne (s := s.withPorts a b) h]

theorem unpause_not_blocked {s : State} (hs : s.runState ≠ .blockedOnInput) :
    (unpause s).runState ≠ .blockedOnInput := by
  by_cases hp : s.runState = .paused
  · simp [unpause_of_paused hp]
  · rwa [unpause_of_ne hp]

theorem unpause_output (s : State) : (unpause s).output = s.output := by
  obtain ⟨r, hr⟩ := unpause_eq s
  rw [hr, State.setRunState_output]

theorem pauseAgain_output (s : State) : (pauseAgain s).output = s.output := by
  obtain ⟨r, hr⟩ := pauseAgain_eq s
  rw [hr, State.setRunState_output]

theorem singleStepCycle_blindToPorts {s : State} {a : Word} (hs : s.runState ≠ .blockedOnInput) :
    BlindToPorts singleStepCycle s a := by
  intro b t h
  obtain ⟨u, hc, rfl⟩ := singleStepCycle_cases h
  obtain ⟨b', hb, ht⟩ := cycle_blindToPorts (fun hr => absurd hr (unpause_not_blocked hs)) b u hc
  refine ⟨b', by rwa [pauseAgain_output, ← unpause_output s], ?_⟩
  rw [singleStepCycle, unpause_withPorts, ht, ← pauseAgain_withPorts]

theorem hostStep_step_blindToPorts {s : State} {a : Word} (hs : s.runState ≠ .blockedOnInput) :
    BlindToPorts (hostStep .step) s a := by
  intro b t h
  obtain ⟨hadm, he⟩ := hostStep_cases h
  obtain ⟨b', hb, ht⟩ := singleStepCycle_blindToPorts hs b t he
  have hadm' : admitted .step (s.withPorts a b) = true := hadm
  exact ⟨b', hb, by rw [hostStep, if_pos hadm']; exact ht⟩

end Sys2Proof.Machine

namespace Sys2Proof.Proofs

open Sys2Proof.Machine

/-- Settles O44: the writers of INPUT transition by transition, and the blindness of steps and single-step calls. -/
theorem inputRegisterIsTheHosts : Obligations.InputRegisterIsTheHosts := by
  refine ⟨fun i s t h => ?_, fun s t => step_input, fun op s t => hostStep_input,
    fun s t v hs => ⟨fun h => ?_, fun h => ?_⟩⟩
  · obtain ⟨_, hinput, _⟩ := exec_frame h
    exact hinput
  · exact (step_blindToPorts fun hr => absurd hr hs).next_of_input h
  · exact (hostStep_step_blindToPorts hs).next_of_input h

/-- Settles O45: the writers of OUTPUT transition by transition, and the blindness of steps, which keep INPUT. -/
theorem outputRegisterIsNeverRead : Obligations.OutputRegisterIsNeverRead := by
  refine ⟨fun s t => step_output, fun op s t => hostStep_output, fun s t v h => ?_, fun s hs => ?_⟩
  · exact (step_blindToPorts fun _ => rfl).next_of_output h (step_input h) v
  · rw [hostRead, if_neg fun hu => hs hu.1, answer]

end Sys2Proof.Proofs

/-! The ignored bits of an instruction word (30_encoding.md R77): the five instructions with ignored bits are those
without an address operand. No such instruction reads or writes IR or the memory when it executes, so a cycle that
fetches it through another word at the PC differs in IR and in that cell alone. -/

namespace Sys2Proof

theorem condField_instrWord_eq (op : BitVec 4) (x : BitVec 12) :
    condField (instrWord op x) = x.extractLsb' 10 2 := by
  have h := condField_instrWord op (x.extractLsb' 10 2) (x.extractLsb' 0 10)
  rwa [condOperand_fields] at h

theorem decode_instrWord_skipCond (x : BitVec 12) :
    decode (instrWord 8 x) = .instr (.skipCond (x.extractLsb' 10 2)) := by
  simp [decode, opField_instrWord, condField_instrWord_eq]

end Sys2Proof

namespace Sys2Proof.Machine

/-- Two operand fields that differ in ignored bits alone give one instruction, and it takes no address (R72, R77). -/
theorem decode_of_ignored_bits {op : BitVec 4} {u v : BitVec 12}
    (h : op = 5 ∨ op = 6 ∨ op = 7 ∨ op = 10 ∨ (op = 8 ∧ u.extractLsb' 10 2 = v.extractLsb' 10 2)) :
    ∃ i, operandAddr i = none ∧ decode (instrWord op u) = .instr i ∧ decode (instrWord op v) = .instr i := by
  rcases h with rfl | rfl | rfl | rfl | ⟨rfl, huv⟩
  · exact ⟨.input, by simp [operandAddr, decode, opField_instrWord]⟩
  · exact ⟨.output, by simp [operandAddr, decode, opField_instrWord]⟩
  · exact ⟨.halt, by simp [operandAddr, decode, opField_instrWord]⟩
  · exact ⟨.clear, by simp [operandAddr, decode, opField_instrWord]⟩
  · exact ⟨.skipCond (u.extractLsb' 10 2), rfl, decode_instrWord_skipCond u, huv ▸ decode_instrWord_skipCond v⟩

/-- The same state with the word `w` in IR and the memory `m`. -/
def State.withIrMem (s : State) (w : Word) (m : Memory) : State := { s with ir := w, mem := m }

/-- An instruction without an address operand executes without IR and the memory. -/
theorem exec_withIrMem {i : Instr} {s t : State} (hi : operandAddr i = none) (h : exec i s = .next t)
    (w : Word) (m : Memory) : exec i (s.withIrMem w m) = .next (t.withIrMem w m) := by
  cases i
  case skipCond c =>
    rcases execSkipCond_cases h with ⟨hc, rfl⟩ | ⟨hc, rfl⟩ | ⟨hc, rfl⟩ <;>
      simp only [exec, execSkipCond, State.withIrMem, hc] <;> rfl
  case input => cases h; rfl
  case output => cases h; rfl
  case halt => cases h; rfl
  case clear => cases h; rfl
  all_goals cases hi

/-- An instruction without an address operand writes no cell (R57). -/
theorem exec_mem_of_no_operand {i : Instr} {s t : State} (hi : operandAddr i = none) (h : exec i s = .next t) :
    t.mem = s.mem := by
  rcases exec_mem h with hmem | ⟨x, rfl, _⟩ | ⟨x, rfl, _⟩
  · exact hmem
  · cases hi
  · cases hi

/-- Without an address operand, what the execute phase sees of the memory is the fetched word in IR (R107). -/
theorem atExecute_of_mem {i : Instr} (hi : operandAddr i = none) (s : State) (m : Memory) :
    ({ s with mem := m } : State).atExecute i = (s.atExecute i).withIrMem (m.read s.pc.toNat) m := by
  simp [State.atExecute, State.withIrMem, State.memRead, hi]

/-- A cycle that fetches an instruction without an address operand writes no cell, and with another memory that holds
the same instruction at the PC it differs in IR and memory alone. -/
theorem fetchExecute_of_no_operand {i : Instr} {s : State} {m : Memory} (hi : operandAddr i = none)
    (hs : s.Fetches i) (hm : decode (m.read s.pc.toNat) = .instr i) :
    ∃ t, fetchExecute s = .next t ∧ t.mem = s.mem ∧
      fetchExecute { s with mem := m } = .next (t.withIrMem (m.read s.pc.toNat) m) := by
  by_cases hp : s.pc = 4095#12
  · refine ⟨atTopAddress s i, fetchExecute_of_top hs hp, rfl, ?_⟩
    rw [fetchExecute_of_top (s := { s with mem := m }) hm hp, atTopAddress, atExecute_of_mem hi]
    rfl
  · obtain ⟨t, ht⟩ := exec_next i (s.atExecute i)
    have htmem := exec_mem_of_no_operand hi ht
    refine ⟨t, (fetchExecute_of_ready hs hp).trans ht, htmem, ?_⟩
    rw [fetchExecute_of_ready (s := { s with mem := m }) hm hp, atExecute_of_mem hi]
    exact exec_withIrMem hi ht _ _

/-- The second of two writes to one cell is the one that stays. -/
theorem Memory.write_write {m : Memory} (hm : m.wf = true) {a : Nat} (ha : a < 4096) (v w : Word) :
    (m.write a v).write a w = m.write a w := by
  have hmv : (m.write a v).wf = true := Memory.write_wf hm ha v
  refine Memory.ext_of_wf (Memory.write_wf hmv ha w) (Memory.write_wf hm ha w) fun b => ?_
  rw [Memory.read_write hmv, Memory.read_write hm, Memory.read_write hm]
  split_ifs <;> rfl

/-- Two words at the PC for one instruction without an address operand: the steps differ in IR and the word's cell. -/
theorem step_of_same_instr {i : Instr} {s : State} {w w' : Word} (hmem : s.mem.wf = true) (hs : s.Runs)
    (hi : operandAddr i = none) (hw : decode w = .instr i) (hw' : decode w' = .instr i) :
    ∃ t, step (s.memWrite s.pc w) = .next t ∧
      step (s.memWrite s.pc w') = .next { t with ir := w', mem := (t.memWrite s.pc w').mem } := by
  have hread (x : Word) : (s.mem.write s.pc.toNat x).read s.pc.toNat = x := by simp [Memory.read_write hmem]
  obtain ⟨t, ht, htmem, ht'⟩ := fetchExecute_of_no_operand (s := s.memWrite s.pc w)
    (m := s.mem.write s.pc.toNat w') hi ((congrArg decode (hread w)).trans hw)
    ((congrArg decode (hread w')).trans hw')
  have hcell : (t.memWrite s.pc w').mem = s.mem.write s.pc.toNat w' := by
    rw [State.memWrite_mem, htmem, State.memWrite_mem, Memory.write_write hmem s.pc.isLt]
  refine ⟨t, (step_eq_fetchExecute (s := s.memWrite s.pc w) hs).trans ht, ?_⟩
  rw [hcell, step_eq_fetchExecute (s := s.memWrite s.pc w') hs]
  exact ht'.trans (by rw [State.memWrite_pc, hread]; rfl)

end Sys2Proof.Machine

namespace Sys2Proof.Proofs

open Sys2Proof.Machine

/-- Settles O5: both words decode to one instruction without an address operand, whose cycle sees neither the ignored
bits nor their cell. -/
theorem ignoredBitsHaveNoEffect : Obligations.IgnoredBitsHaveNoEffect := by
  refine ⟨fun s op u v hmem hs hop => ?_, by decide⟩
  obtain ⟨i, hi, hu, hv⟩ := decode_of_ignored_bits hop
  exact ⟨hu.trans hv.symm, step_of_same_instr hmem hs hi hu hv⟩

end Sys2Proof.Proofs

/-! The whole cycle of Output (43_io.md R143): any word of opcode 6 fetches it, whatever its ignored bits (R77); below
the top address it executes on what the fetch left, and at the top address the fetch halts the machine first. -/

namespace Sys2Proof

theorem decode_instrWord_output (u : BitVec 12) : decode (instrWord 6 u) = .instr .output := by
  simp [decode, opField_instrWord]

end Sys2Proof

namespace Sys2Proof.Machine

/-- A running machine below the top address executes the instruction it fetches (R106). -/
theorem step_of_ready {s : State} {i : Instr} (hs : s.Runs) (h : s.Fetches i) (hp : s.pc ≠ 4095#12) :
    step s = exec i (s.atExecute i) :=
  (step_eq_fetchExecute hs).trans (fetchExecute_of_ready h hp)

/-- At the top address a running machine halts before the instruction it fetches is executed (R105). -/
theorem step_of_top {s : State} {i : Instr} (hs : s.Runs) (h : s.Fetches i) (hp : s.pc = 4095#12) :
    step s = .next (atTopAddress s i) :=
  (step_eq_fetchExecute hs).trans (fetchExecute_of_top h hp)

end Sys2Proof.Machine

namespace Sys2Proof.Proofs

open Sys2Proof.Machine

/-- Settles O34: the ignored bits leave the fetched instruction Output, which emits AC below the top address and is not
executed at it. -/
theorem cycleOfOutput : Obligations.CycleOfOutput := by
  refine ⟨rfl, fun s u hs hw => ?_⟩
  have hf : s.Fetches .output := (congrArg decode hw).trans (decode_instrWord_output u)
  refine ⟨fun hp => ?_, fun hp => ?_⟩
  · rw [step_of_ready hs hf hp, ← hw]
    rfl
  · exact ⟨atTopAddress s .output, step_of_top hs hf hp, rfl, rfl, rfl, rfl, rfl⟩

end Sys2Proof.Proofs

/-! The whole cycles of Load, Store and Clear (41_data_transfer.md R120, R121, R122): the opcode field of the word fetches
the instruction; below the top address it executes on what the fetch left, and at the top address the fetch halts the
machine first. -/

namespace Sys2Proof

theorem decode_instrWord_load (x : Addr) : decode (instrWord 1 x) = .instr (.load x) := by
  simp [decode, opField_instrWord, operandField_instrWord]

theorem decode_instrWord_store (x : Addr) : decode (instrWord 2 x) = .instr (.store x) := by
  simp [decode, opField_instrWord, operandField_instrWord]

theorem decode_instrWord_clear (u : BitVec 12) : decode (instrWord 10 u) = .instr .clear := by
  simp [decode, opField_instrWord]

end Sys2Proof

namespace Sys2Proof.Machine

/-- After its fetch, Store X writes AC to M[X] and leaves AC in MBR, whatever the pre-load put there (R121). -/
theorem exec_store_atExecute (s : State) (x : Addr) :
    exec (.store x) (s.atExecute (.store x)) =
      .next (((s.atExecute (.store x)).setMbr s.ac).memWrite x s.ac) := rfl

end Sys2Proof.Machine

namespace Sys2Proof.Proofs

open Sys2Proof.Machine

/-- Settles O30: the pre-load has put M[X] in MBR, which the execute phase copies to AC; at the top address there is no
execute phase. -/
theorem cycleOfLoad : Obligations.CycleOfLoad := by
  intro s x hs hw
  have hf : s.Fetches (.load x) := (congrArg decode hw).trans (decode_instrWord_load x)
  refine ⟨fun hp => ?_, fun hp => ?_⟩
  · rw [step_of_ready hs hf hp, ← hw]
    rfl
  · exact ⟨atTopAddress s (.load x), step_of_top hs hf hp, rfl, rfl, rfl, rfl⟩

/-- Settles O31: below the top address the only write to memory is that of AC to M[X], read back by the memory's
last-write law; at it the fetch writes none. -/
theorem cycleOfStore : Obligations.CycleOfStore := by
  intro s x hmem hs hw
  have hf : s.Fetches (.store x) := (congrArg decode hw).trans (decode_instrWord_store x)
  refine ⟨fun hp => ?_, fun hp => ?_⟩
  · have hstep := (step_of_ready hs hf hp).trans (exec_store_atExecute s x)
    have hread (b : Addr) := State.memRead_memWrite (s := (s.atExecute (.store x)).setMbr s.ac) hmem x b s.ac
    refine ⟨_, hstep, ?_, fun b hb => ?_, ?_⟩
    · rw [hread, if_pos rfl]
    · rw [hread, if_neg hb, State.setMbr_memRead, State.atExecute_memRead]
    · rw [← hw]
      rfl
  · exact ⟨atTopAddress s (.store x), step_of_top hs hf hp, rfl, rfl, rfl, rfl⟩

/-- Settles O32: the ignored bits leave the fetched instruction Clear, which has no pre-load and zeroes AC below the top
address; at it AC is kept. -/
theorem cycleOfClear : Obligations.CycleOfClear := by
  refine ⟨rfl, fun s u hs hw => ?_⟩
  have hf : s.Fetches .clear := (congrArg decode hw).trans (decode_instrWord_clear u)
  refine ⟨fun hp => ?_, fun hp => ?_⟩
  · rw [step_of_ready hs hf hp, ← hw]
    rfl
  · exact ⟨atTopAddress s .clear, step_of_top hs hf hp, rfl, rfl, rfl, rfl⟩

end Sys2Proof.Proofs

/-! The opcode map and its inverse (30_encoding.md section 3, R74 to R79): the decoder on a word given by its fields,
and from it that decoding and encoding agree up to the ignored bits. -/

namespace Sys2Proof

theorem decode_instrWord_jnS (x : Addr) : decode (instrWord 0 x) = .instr (.jnS x) := by
  simp [decode, opField_instrWord, operandField_instrWord]

theorem decode_instrWord_add (x : Addr) : decode (instrWord 3 x) = .instr (.add x) := by
  simp [decode, opField_instrWord, operandField_instrWord]

theorem decode_instrWord_subt (x : Addr) : decode (instrWord 4 x) = .instr (.subt x) := by
  simp [decode, opField_instrWord, operandField_instrWord]

theorem decode_instrWord_input (u : BitVec 12) : decode (instrWord 5 u) = .instr .input := by
  simp [decode, opField_instrWord]

theorem decode_instrWord_halt (u : BitVec 12) : decode (instrWord 7 u) = .instr .halt := by
  simp [decode, opField_instrWord]

theorem decode_instrWord_condOperand (c : BitVec 2) (u : BitVec 10) :
    decode (instrWord 8 (condOperand c u)) = .instr (.skipCond c) := by
  simp [decode, opField_instrWord, condField_instrWord]

theorem decode_instrWord_jump (x : Addr) : decode (instrWord 9 x) = .instr (.jump x) := by
  simp [decode, opField_instrWord, operandField_instrWord]

theorem decode_instrWord_addI (x : Addr) : decode (instrWord 11 x) = .instr (.addI x) := by
  simp [decode, opField_instrWord, operandField_instrWord]

theorem decode_instrWord_jumpI (x : Addr) : decode (instrWord 12 x) = .instr (.jumpI x) := by
  simp [decode, opField_instrWord, operandField_instrWord]

/-- The word the encoder writes is the instruction's own (R74). -/
theorem decode_encode (i : Instr) : decode (encode i) = .instr i := by
  cases i with
  | jnS x => exact decode_instrWord_jnS x
  | load x => exact decode_instrWord_load x
  | store x => exact decode_instrWord_store x
  | add x => exact decode_instrWord_add x
  | subt x => exact decode_instrWord_subt x
  | input => exact decode_instrWord_input 0
  | output => exact decode_instrWord_output 0
  | halt => exact decode_instrWord_halt 0
  | skipCond c => exact decode_instrWord_condOperand c 0
  | jump x => exact decode_instrWord_jump x
  | clear => exact decode_instrWord_clear 0
  | addI x => exact decode_instrWord_addI x
  | jumpI x => exact decode_instrWord_jumpI x

/-- A mask over a word acts on each field by itself. -/
theorem instrWord_and (op m : BitVec 4) (x n : BitVec 12) :
    instrWord op x &&& instrWord m n = instrWord (op &&& m) (x &&& n) :=
  BitVec.and_append

theorem condOperand_and (c m : BitVec 2) (u n : BitVec 10) :
    condOperand c u &&& condOperand m n = condOperand (c &&& m) (u &&& n) :=
  BitVec.and_append

/-- The mask `0xF000` keeps the opcode alone, as in the four instructions whose operand field is ignored (R77). -/
theorem instrWord_and_opcode (op : BitVec 4) (u : BitVec 12) : instrWord op u &&& 0xF000#16 = instrWord op 0#12 := by
  have hmask : 0xF000#16 = instrWord (BitVec.allOnes 4) 0#12 := by decide
  rw [hmask, instrWord_and, BitVec.and_allOnes, BitVec.and_zero]

/-- The mask `0xFC00` keeps the opcode and the condition of a SkipCond word (R77). -/
theorem instrWord_and_condition (op : BitVec 4) (c : BitVec 2) (u : BitVec 10) :
    instrWord op (condOperand c u) &&& 0xFC00#16 = instrWord op (condOperand c 0#10) := by
  have hmask : 0xFC00#16 = instrWord (BitVec.allOnes 4) (condOperand (BitVec.allOnes 2) 0#10) := by decide
  rw [hmask, instrWord_and, condOperand_and, BitVec.and_allOnes, BitVec.and_allOnes, BitVec.and_zero]

/-- The opcode field of a word that decodes is the number the table gives the instruction (R74). -/
theorem opField_of_decode {w : Word} {i : Instr} (h : decode w = .instr i) :
    opField w = Laws.EncodedOpcode.number i := by
  unfold decode at h
  split at h <;> cases h <;> exact BitVec.eq_of_toNat_eq ‹_›

/-- Encoding what a word decodes to clears the word's ignored bits and keeps the others (R77). -/
theorem encode_of_decode {w : Word} {i : Instr} (h : decode w = .instr i) : encode i = w &&& Machine.usedBits i := by
  obtain ⟨x, rfl⟩ : ∃ x, w = instrWord (Laws.EncodedOpcode.number i) x :=
    ⟨operandField w, by rw [← opField_of_decode h, instrWord_fields]⟩
  have hall (v : Word) : v &&& 0xFFFF#16 = v := BitVec.and_allOnes
  cases i with
  | input => exact (instrWord_and_opcode 5 x).symm
  | output => exact (instrWord_and_opcode 6 x).symm
  | halt => exact (instrWord_and_opcode 7 x).symm
  | clear => exact (instrWord_and_opcode 10 x).symm
  | skipCond c =>
    cases (decode_instrWord_skipCond x).symm.trans h
    have hmask := instrWord_and_condition 8 (x.extractLsb' 10 2) (x.extractLsb' 0 10)
    rw [condOperand_fields] at hmask
    exact hmask.symm
  | jnS y => cases (decode_instrWord_jnS x).symm.trans h; exact (hall _).symm
  | load y => cases (decode_instrWord_load x).symm.trans h; exact (hall _).symm
  | store y => cases (decode_instrWord_store x).symm.trans h; exact (hall _).symm
  | add y => cases (decode_instrWord_add x).symm.trans h; exact (hall _).symm
  | subt y => cases (decode_instrWord_subt x).symm.trans h; exact (hall _).symm
  | jump y => cases (decode_instrWord_jump x).symm.trans h; exact (hall _).symm
  | addI y => cases (decode_instrWord_addI x).symm.trans h; exact (hall _).symm
  | jumpI y => cases (decode_instrWord_jumpI x).symm.trans h; exact (hall _).symm

theorem toNat_opField (w : Word) : (opField w).toNat = w.toNat / 4096 := by
  simp only [opField, BitVec.extractLsb'_toNat, Nat.shiftRight_eq_div_pow]
  omega

theorem toNat_condField (w : Word) : (condField w).toNat = w.toNat / 1024 % 4 := by
  simp only [condField, BitVec.extractLsb'_toNat, Nat.shiftRight_eq_div_pow]

/-- The decoder refuses exactly the words from 0xD000 (R75). -/
theorem decode_illegal_iff_le (w : Word) : (∃ op, decode w = .illegalOpcode op) ↔ 0xD000 ≤ w.toNat := by
  rw [decode_illegal_iff, toNat_opField]
  omega

/-- The words of each SkipCond condition fill a range of 1024 (R76). -/
theorem decode_skipCond_of_range {w : Word} {c : BitVec 2}
    (h : 0x8000 + 0x400 * c.toNat ≤ w.toNat ∧ w.toNat ≤ 0x83FF + 0x400 * c.toNat) :
    decode w = .instr (.skipCond c) := by
  have hop : opField w = 8 := BitVec.eq_of_toNat_eq (by rw [toNat_opField]; change _ = 8; omega)
  have hcond : condField w = c := BitVec.eq_of_toNat_eq (by rw [toNat_condField]; omega)
  simp [decode, hop, hcond]

end Sys2Proof

namespace Sys2Proof.Proofs

/-- Settles O3: the encoder writes each instruction's own word, and a word that decodes is its opcode over its operand
field, of which the mask of used bits drops what the encoder writes as 0. -/
theorem decodeAndEncodeAgree : Obligations.DecodeAndEncodeAgree :=
  ⟨fun i _ => decode_encode i, fun _ _ h => encode_of_decode h⟩

/-- Settles O4: the opcode field is the word's value divided by 4096. -/
theorem illegalWordsAreThoseFromD000 : Obligations.IllegalWordsAreThoseFromD000 :=
  decode_illegal_iff_le

/-- Settles O2: the decoder on a word given by its opcode and operand fields, opcode by opcode. -/
theorem decodeFollowsTheOpcodeMap : Obligations.DecodeFollowsTheOpcodeMap := fun x =>
  ⟨decode_instrWord_jnS x, decode_instrWord_load x, decode_instrWord_store x, decode_instrWord_add x,
    decode_instrWord_subt x, decode_instrWord_input x, decode_instrWord_output x, decode_instrWord_halt x,
    decode_instrWord_skipCond x, decode_instrWord_jump x, decode_instrWord_clear x, decode_instrWord_addI x,
    decode_instrWord_jumpI x⟩

/-- Settles O1: sixteen fixed words, each decoded by evaluation. -/
theorem sampleWordsDecodeAsTheSpecWritesThem : Obligations.SampleWordsDecodeAsTheSpecWritesThem := by
  unfold Obligations.SampleWordsDecodeAsTheSpecWritesThem
  decide

end Sys2Proof.Proofs

/-! What the machine's own transition and a cycle come to, said once for the rules about the whole machine: the fetch
in its three ends, and the parts of the state that a cycle keeps or changes (R100, R197). -/

namespace Sys2Proof.Machine

/-- A cycle with a fetch always has a next state. -/
theorem fetchExecute_next (s : State) : ∃ t, fetchExecute s = .next t := by
  rcases fetchExecute_cases s with ⟨_, _, hf⟩ | ⟨i, _, _, hf⟩ | ⟨i, _, _, hf⟩
  · exact ⟨_, hf⟩
  · exact ⟨_, hf⟩
  · rw [hf]
    exact exec_next i (s.atExecute i)

theorem stopEnabled_iff (s : State) :
    stopEnabled s = true ↔
      s.stopRequested = true ∧ (s.runState = .running ∨ s.runState = .paused ∨ s.runState = .blockedOnInput) := by
  cases hr : s.runState <;> simp [stopEnabled, hr]

theorem cycleDefined_iff (s : State) :
    cycleDefined s = true ↔ s.runState = .running ∨ (s.runState = .blockedOnInput ∧ s.inputReady = true) := by
  cases hr : s.runState <;> simp [cycleDefined, hr]

theorem runEnabled_iff (s : State) :
    runEnabled s = true ↔
      s.stopRequested = false ∧ s.singleStep = false ∧
        (s.runState = .running ∨ (s.runState = .blockedOnInput ∧ s.inputReady = true)) := by
  simp [runEnabled, cycleDefined_iff, and_assoc]

/-- Where `cycle` is defined it has a next state (R100). -/
theorem cycle_next {s : State} (h : cycleDefined s = true) : ∃ t, cycle s = .next t := by
  rcases (cycleDefined_iff s).mp h with hr | ⟨hr, hi⟩
  · rw [cycle_of_running hr]
    exact fetchExecute_next s
  · exact ⟨_, cycle_of_supplied hr hi⟩

theorem step_of_stopEnabled {s : State} (h : stopEnabled s = true) : step s = .next (takeStop s) := by
  rw [step, runControl, if_pos h]

theorem step_of_runEnabled {s : State} (h : runEnabled s = true) : step s = cycle s := by
  have hstop : ¬stopEnabled s = true := by
    obtain ⟨hs, _⟩ := (runEnabled_iff s).mp h
    simp [stopEnabled_iff, hs]
  rw [step, runControl, if_neg hstop, if_pos h]

theorem step_of_disabled {s : State} (hstop : ¬stopEnabled s = true) (hrun : ¬runEnabled s = true) :
    step s = .fault (holdReason s) := by
  rw [step, runControl, if_neg hstop, if_neg hrun]

/-- The machine has no transition exactly where neither the stop nor the run is enabled (R197). -/
theorem step_fault_iff (s : State) :
    (∃ r, step s = .fault r) ↔ ¬stopEnabled s = true ∧ ¬runEnabled s = true := by
  refine ⟨fun ⟨r, hr⟩ => ⟨fun hstop => ?_, fun hrun => ?_⟩, fun ⟨hstop, hrun⟩ => ⟨_, step_of_disabled hstop hrun⟩⟩
  · cases (step_of_stopEnabled hstop).symm.trans hr
  · obtain ⟨_, _, hdef⟩ := (runEnabled_iff s).mp hrun
    obtain ⟨t, ht⟩ := cycle_next ((cycleDefined_iff s).mpr hdef)
    cases ((step_of_runEnabled hrun).trans ht).symm.trans hr

/-- A cycle with a fetch: the opcode check fails, the top address is met, or the instruction is executed. -/
theorem fetchExecute_next_cases {s t : State} (h : fetchExecute s = .next t) :
    (∃ op, decode (s.memRead s.pc) = .illegalOpcode op ∧ t = atIllegalOpcode s) ∨
      (∃ i, s.Fetches i ∧ s.pc = 4095#12 ∧ t = atTopAddress s i) ∨
      (∃ i, s.Fetches i ∧ s.pc ≠ 4095#12 ∧ exec i (s.atExecute i) = .next t) := by
  rcases fetchExecute_cases s with ⟨op, hd, hf⟩ | ⟨i, hi, hp, hf⟩ | ⟨i, hi, hp, hf⟩ <;> rw [hf] at h
  · cases h; exact .inl ⟨op, hd, rfl⟩
  · cases h; exact .inr (.inl ⟨i, hi, hp, rfl⟩)
  · exact .inr (.inr ⟨i, hi, hp, h⟩)

/-- A step is the stop transition, the completion of a supplied Input, or a cycle with a fetch of a running machine. -/
theorem step_next_cases {s t : State} (h : step s = .next t) :
    (s.stopRequested = true ∧
        (s.runState = .running ∨ s.runState = .paused ∨ s.runState = .blockedOnInput) ∧ t = takeStop s) ∨
      t = completeInput s ∨ (s.Runs ∧ fetchExecute s = .next t) := by
  rcases step_cases h with hstop | ⟨hstop, hsingle, hc⟩
  · exact .inl hstop
  · rcases cycle_cases hc with ⟨_, _, ht⟩ | ⟨hr, hf⟩
    · exact .inr (.inl ht)
    · exact .inr (.inr ⟨⟨hr, hsingle, hstop⟩, hf⟩)

theorem step_of_illegal {s : State} {op : BitVec 4} (hs : s.Runs) (h : decode (s.memRead s.pc) = .illegalOpcode op) :
    step s = .next (atIllegalOpcode s) :=
  (step_eq_fetchExecute hs).trans (fetchExecute_of_illegal h)

/-- The memory after a cycle with a fetch: only a Store or a JnS below the top address writes it, one cell. -/
theorem fetchExecute_mem {s t : State} (h : fetchExecute s = .next t) :
    t.mem = s.mem ∨
      (s.pc ≠ 4095#12 ∧
        ((∃ x, s.Fetches (.store x) ∧ t.mem = (s.memWrite x s.ac).mem) ∨
          (∃ x, s.Fetches (.jnS x) ∧ t.mem = (s.memWrite x (zext16 (s.pc + 1))).mem))) := by
  rcases fetchExecute_next_cases h with ⟨_, _, rfl⟩ | ⟨i, _, _, rfl⟩ | ⟨i, hi, hp, he⟩
  · exact .inl rfl
  · exact .inl rfl
  · rcases exec_mem he with hmem | ⟨x, rfl, hmem⟩ | ⟨x, rfl, hmem⟩
    · exact .inl hmem
    · exact .inr ⟨hp, .inl ⟨x, hi, hmem⟩⟩
    · exact .inr ⟨hp, .inr ⟨x, hi, hmem⟩⟩

/-- A cell that one write changed is the cell written, and holds the word written. -/
theorem memRead_of_changed {s t : State} {a b : Addr} {v : Word} (hs : s.mem.wf = true)
    (ht : t.mem = (s.memWrite a v).mem) (hne : t.memRead b ≠ s.memRead b) : a = b ∧ t.memRead b = v := by
  have hread : t.memRead b = if b = a then v else s.memRead b := by
    rw [State.memRead_eq, ht]
    exact State.memRead_memWrite hs a b v
  have hb : b = a := by_contra fun hb => hne (hread.trans (if_neg hb))
  exact ⟨hb.symm, hread.trans (if_pos hb)⟩

theorem step_mem {s t : State} (h : step s = .next t) :
    t.mem = s.mem ∨
      (s.Runs ∧ s.pc ≠ 4095#12 ∧
        ((∃ x, s.Fetches (.store x) ∧ t.mem = (s.memWrite x s.ac).mem) ∨
          (∃ x, s.Fetches (.jnS x) ∧ t.mem = (s.memWrite x (zext16 (s.pc + 1))).mem))) := by
  rcases step_next_cases h with ⟨_, _, rfl⟩ | rfl | ⟨hs, hf⟩
  · exact .inl rfl
  · exact .inl rfl
  · exact (fetchExecute_mem hf).imp_right fun hmem => ⟨hs, hmem⟩

theorem fetchExecute_mem_wf {s t : State} (hs : s.mem.wf = true) (h : fetchExecute s = .next t) :
    t.mem.wf = true := by
  rcases fetchExecute_mem h with hmem | ⟨_, ⟨x, _, hmem⟩ | ⟨x, _, hmem⟩⟩ <;> rw [hmem]
  · exact hs
  · exact State.memWrite_wf hs x _
  · exact State.memWrite_wf hs x _

/-- OUTPUT and the output sequence after a cycle with a fetch: only an Output below the top address writes them. -/
theorem fetchExecute_outputs {s t : State} (h : fetchExecute s = .next t) :
    (t.output = s.output ∧ t.outputs = s.outputs) ∨
      (s.Fetches .output ∧ s.pc ≠ 4095#12 ∧ t.outputs = s.outputs ++ [s.ac] ∧ t.output = s.ac) := by
  rcases fetchExecute_next_cases h with ⟨_, _, rfl⟩ | ⟨i, _, _, rfl⟩ | ⟨i, hi, hp, he⟩
  · exact .inl ⟨rfl, rfl⟩
  · exact .inl ⟨rfl, rfl⟩
  · rcases exec_outputs he with hout | ⟨rfl, hout, houts⟩
    · exact .inl hout
    · exact .inr ⟨hi, hp, houts, hout⟩

/-- The hidden control state is not written by a cycle with a fetch (R36). -/
theorem fetchExecute_flags {s t : State} (h : fetchExecute s = .next t) :
    t.inputReady = s.inputReady ∧ t.stopRequested = s.stopRequested ∧ t.ready = s.ready ∧
      t.singleStep = s.singleStep := by
  rcases fetchExecute_next_cases h with ⟨_, _, rfl⟩ | ⟨i, _, _, rfl⟩ | ⟨i, _, _, he⟩
  · exact ⟨rfl, rfl, rfl, rfl⟩
  · exact ⟨rfl, rfl, rfl, rfl⟩
  · obtain ⟨_, _, hflags⟩ := exec_frame he
    exact hflags

/-- A cycle with a fetch leaves `fatal` and `error_kind` alone and the machine as it was, blocked or halted, or it
raises one of the four errors a cycle can raise (R172). -/
theorem fetchExecute_control {s t : State} (h : fetchExecute s = .next t) :
    (t.fatal = s.fatal ∧ t.errorKind = s.errorKind ∧
        (t.runState = s.runState ∨ t.runState = .blockedOnInput ∨
          t.runState = if s.fatal then .haltedAbnormal else .haltedNormal)) ∨
      (t.fatal = true ∧ t.runState = .haltedAbnormal ∧ t.errorKind ≠ .none ∧ t.errorKind ≠ .addressOutOfRange) := by
  rcases fetchExecute_next_cases h with ⟨_, _, rfl⟩ | ⟨i, _, _, rfl⟩ | ⟨i, _, _, he⟩
  · exact .inr ⟨rfl, rfl, nofun, nofun⟩
  · exact .inr ⟨rfl, rfl, nofun, nofun⟩
  · rcases exec_control he with ⟨hr, hf, hk⟩ | ⟨hr, hf, hk⟩ | ⟨hr, hf, hk⟩ | ⟨hr, hf, hk⟩
    · exact .inl ⟨hf, hk, .inl hr⟩
    · exact .inl ⟨hf, hk, .inr (.inl hr)⟩
    · exact .inl ⟨hf, hk, .inr (.inr hr)⟩
    · refine .inr ⟨hf, hr, ?_⟩
      rcases hk with hk | hk <;> simp [hk]

end Sys2Proof.Machine

namespace Sys2Proof.Proofs

open Sys2Proof.Machine

/-- Settles O15: the two transitions of the run control, each with a next state where it is enabled. -/
theorem machineHoldsWhereNothingIsEnabled : Obligations.MachineHoldsWhereNothingIsEnabled := by
  intro s
  refine ⟨?_, step_not_refused s⟩
  rw [← stopEnabled_iff, ← runEnabled_iff]
  exact step_fault_iff s

/-- Settles O14: the stop comes before the run transition. -/
theorem stopIsTakenBetweenCycles : Obligations.StopIsTakenBetweenCycles := fun s hstop hr =>
  step_of_stopEnabled ((stopEnabled_iff s).mpr ⟨hstop, hr⟩)

/-- Settles O16: the cycle of a blocked machine with its word supplied is the completion of the Input. -/
theorem suppliedInputCompletes : Obligations.SuppliedInputCompletes := fun s hr hi hsingle hstop =>
  (step_of_runEnabled ((runEnabled_iff s).mpr ⟨hstop, hsingle, .inr ⟨hr, hi⟩⟩)).trans (cycle_of_supplied hr hi)

/-- Settles O10: the fetch of a legal word below the top address leaves its instruction to execute. -/
theorem stepRunsTheFetchedInstruction : Obligations.StepRunsTheFetchedInstruction := fun _ _ hs hi _ hp =>
  step_of_ready hs hi hp

/-- Settles O11: the words from 0xD000 are those the opcode check refuses, before PC is looked at. -/
theorem illegalOpcodeHaltsAtDecode : Obligations.IllegalOpcodeHaltsAtDecode := by
  intro s hs hw
  obtain ⟨op, hop⟩ := (decode_illegal_iff_le _).mpr hw
  exact step_of_illegal hs hop

/-- Settles O12: the fetch from the top address ends in its error, with the pre-load done. -/
theorem fetchFromTheTopAddressHalts : Obligations.FetchFromTheTopAddressHalts := by
  intro s i hs hi hp
  rw [step_of_top hs hi hp, ← hp]
  rfl

/-- Settles O8: the one cell a step writes is that of the Store or JnS it fetched, and it reads back what was stored. -/
theorem onlyStoreAndJnSChangeMemory : Obligations.OnlyStoreAndJnSChangeMemory := by
  intro s t b hmem h hne
  rcases step_mem h with ht | ⟨hs, hp, ⟨x, hi, ht⟩ | ⟨x, hi, ht⟩⟩
  · exact absurd (congrArg (Memory.read · b.toNat) ht) hne
  · obtain ⟨rfl, hread⟩ := memRead_of_changed hmem ht hne
    exact ⟨hs, hp, .inl ⟨hi, hread⟩⟩
  · obtain ⟨rfl, hread⟩ := memRead_of_changed hmem ht hne
    exact ⟨hs, hp, .inr ⟨hi, hread⟩⟩

end Sys2Proof.Proofs

/-! The host's operations (70_reset_and_hazards.md sections 1, 2, 4 and 7): when each is admitted, that an admitted one
has a next state, what a load leaves in memory, and that a single-step call is a cycle of the running machine. -/

namespace Sys2Proof

theorem Program.wf_iff (p : Program) (start : Nat) :
    p.wf start = true ↔ (∀ c ∈ p, c.1 < 4096) ∧ (p.map Prod.fst).Nodup ∧ p.head?.map Prod.fst = some start := by
  have hdistinct : p.distinct = true ↔ (p.map Prod.fst).Nodup := by
    induction p with
    | nil => simp [Program.distinct]
    | cons c p ih =>
      simp only [Program.distinct, Bool.and_eq_true, ih, List.all_eq_true, decide_eq_true_eq, List.map_cons,
        List.nodup_cons, List.mem_map, not_exists, not_and, ne_comm]
  simp [Program.wf, Program.inRange, Program.startsAt, hdistinct, and_assoc]

theorem Program.inRange_of_wf {p : Program} {start : Nat} (h : p.wf start = true) : p.inRange = true := by
  simp only [Program.wf, Bool.and_eq_true] at h
  obtain ⟨⟨hrange, _⟩, _⟩ := h
  exact hrange

/-- The start address of a well-formed program is an address of the machine. -/
theorem Program.start_lt {p : Program} {start : Nat} (h : p.wf start = true) : start < 4096 := by
  obtain ⟨hrange, _, hhead⟩ := (Program.wf_iff p start).mp h
  obtain ⟨c, hc, rfl⟩ := Option.map_eq_some_iff.mp hhead
  exact hrange c (List.mem_of_head? hc)

end Sys2Proof

namespace Sys2Proof.Machine

/-! ## Admission -/

theorem hostStep_of_admitted {op : HostOp} {s : State} (h : admitted op s = true) :
    hostStep op s = hostEffect op s := if_pos h

theorem hostStep_of_not_admitted {op : HostOp} {s : State} (h : ¬admitted op s = true) :
    hostStep op s = .refused (.notAdmitted op) := if_neg h

theorem admitted_load_iff (p : Program) (start : Nat) (s : State) :
    admitted (.load p start) s = true ↔ s.runState = .noProgramLoaded ∧ p.wf start = true := by
  simp [admitted]

theorem admitted_start_iff (single : Bool) (s : State) :
    admitted (.start single) s = true ↔ s.runState = .haltedNormal ∧ s.ready = true := by
  simp [admitted]

theorem admitted_step_iff (s : State) :
    admitted .step s = true ↔ s.singleStep = true ∧ s.stopRequested = false ∧
      (s.runState = .paused ∨ (s.runState = .blockedOnInput ∧ s.inputReady = true)) := by
  simp [admitted, and_assoc]

theorem admitted_resume_iff (s : State) : admitted .resume s = true ↔ s.runState = .paused := by
  simp [admitted]

theorem admitted_requestStop_iff (s : State) :
    admitted .requestStop s = true ↔
      s.runState = .running ∨ s.runState = .paused ∨ s.runState = .blockedOnInput := by
  simp [admitted, or_assoc]

theorem admitted_supplyInput_iff (v : Word) (s : State) :
    admitted (.supplyInput v) s = true ↔ s.runState = .blockedOnInput ∧ s.inputReady = false := by
  simp [admitted]

/-- An admitted single-step call begins a cycle that is defined (R194). -/
theorem cycleDefined_unpause {s : State} (h : admitted .step s = true) : cycleDefined (unpause s) = true := by
  obtain ⟨_, _, hr | ⟨hr, hi⟩⟩ := (admitted_step_iff s).mp h
  · rw [unpause_of_paused hr]
    rfl
  · rw [unpause_of_ne (by simp [hr]), cycleDefined_iff]
    exact .inr ⟨hr, hi⟩

theorem singleStepCycle_of_next {s u : State} (h : cycle (unpause s) = .next u) :
    singleStepCycle s = .next (pauseAgain u) := by
  rw [singleStepCycle, h]

/-- Every admitted operation completes (R203). -/
theorem hostEffect_next {op : HostOp} {s : State} (h : admitted op s = true) : ∃ t, hostEffect op s = .next t := by
  cases op with
  | step =>
    obtain ⟨u, hu⟩ := cycle_next (cycleDefined_unpause h)
    exact ⟨pauseAgain u, singleStepCycle_of_next hu⟩
  | reset => exact ⟨_, rfl⟩
  | load p start => exact ⟨_, rfl⟩
  | start single => exact ⟨_, rfl⟩
  | resume => exact ⟨_, rfl⟩
  | requestStop => exact ⟨_, rfl⟩
  | supplyInput v => exact ⟨_, rfl⟩

/-- An operation whose admission is the condition `P` completes where `P` holds and is refused elsewhere. -/
theorem hostStep_of_admission {op : HostOp} {s : State} {P : Prop} (hP : admitted op s = true ↔ P) :
    (P → ∃ t, hostStep op s = .next t) ∧ (¬P → hostStep op s = .refused (.notAdmitted op)) := by
  refine ⟨fun h => ?_, fun h => hostStep_of_not_admitted (mt hP.mp h)⟩
  rw [hostStep_of_admitted (hP.mpr h)]
  exact hostEffect_next (hP.mpr h)

/-! ## load -/

/-- The word a program with distinct addresses names reads back after the copy. -/
theorem copyProgram_read_mem {p : Program} {m : Memory} (hp : p.inRange = true) (hd : (p.map Prod.fst).Nodup)
    (hm : m.wf = true) {c : Nat × Word} (hc : c ∈ p) : (copyProgram p m).read c.1 = c.2 := by
  induction p generalizing m with
  | nil => cases hc
  | cons d p ih =>
    obtain ⟨a, w⟩ := d
    simp only [Program.inRange, List.all_cons, Bool.and_eq_true, decide_eq_true_eq] at hp
    obtain ⟨ha, hp⟩ := hp
    obtain ⟨hnot, hd⟩ := List.nodup_cons.mp hd
    have hwf : (m.write a w).wf = true := Memory.write_wf hm ha w
    rcases List.mem_cons.mp hc with rfl | hc
    · have hother : ∀ e ∈ p, e.1 ≠ a := fun e he hea => hnot (List.mem_map.mpr ⟨e, he, hea⟩)
      rw [copyProgram, copyProgram_read_other hp hwf hother, Memory.read_write hm, if_pos rfl]
    · exact ih hp hd hwf hc

theorem mask12_toNat {n : Nat} (h : n < 4096) : (mask12 n).toNat = n := by
  simp only [mask12, BitVec.toNat_ofNat]
  omega

theorem loadProgram_memRead_mem {p : Program} {start : Nat} {s : State} (hp : p.wf start = true)
    (hm : s.mem.wf = true) {c : Nat × Word} (hc : c ∈ p) :
    (loadProgram p start s).memRead (mask12 c.1) = c.2 := by
  obtain ⟨hrange, hnodup, _⟩ := (Program.wf_iff p start).mp hp
  rw [State.memRead_eq, mask12_toNat (hrange c hc)]
  exact copyProgram_read_mem (Program.inRange_of_wf hp) hnodup hm hc

theorem hostStep_load {p : Program} {start : Nat} {s : State} (hr : s.runState = .noProgramLoaded)
    (hp : p.wf start = true) : hostStep (.load p start) s = .next (loadProgram p start s) :=
  hostStep_of_admitted ((admitted_load_iff p start s).mpr ⟨hr, hp⟩)

theorem hostStep_start {single : Bool} {s : State} (hr : s.runState = .haltedNormal) (hready : s.ready = true) :
    hostStep (.start single) s = .next (startRun single s) :=
  hostStep_of_admitted ((admitted_start_iff single s).mpr ⟨hr, hready⟩)

/-! ## The single-step call -/

/-- The same state in single-step mode or in continuous mode. -/
def State.withMode (s : State) (single : Bool) : State := { s with singleStep := single }

theorem aluResult_withMode (s : State) (b : Bool) (n : Int) :
    (s.withMode b).aluResult n = (s.aluResult n).withMode b := by
  unfold State.aluResult
  split_ifs <;> rfl

/-- No execute phase reads the mode. -/
theorem exec_withMode {i : Instr} {s t : State} (h : exec i s = .next t) (b : Bool) :
    exec i (s.withMode b) = .next (t.withMode b) := by
  cases i
  case skipCond c =>
    rcases execSkipCond_cases h with ⟨hc, rfl⟩ | ⟨hc, rfl⟩ | ⟨hc, rfl⟩ <;>
      simp only [exec, execSkipCond, State.withMode, hc] <;> rfl
  case add x => cases h; exact congrArg _ (aluResult_withMode _ b _)
  case subt x => cases h; exact congrArg _ (aluResult_withMode _ b _)
  case addI x => cases h; exact congrArg _ (aluResult_withMode (s.readThrough (pointee s.mbr)) b _)
  all_goals
    cases h
    rfl

/-- No cycle with a fetch reads the mode (R194). -/
theorem fetchExecute_withMode {s t : State} (h : fetchExecute s = .next t) (b : Bool) :
    fetchExecute (s.withMode b) = .next (t.withMode b) := by
  rcases fetchExecute_next_cases h with ⟨op, hd, rfl⟩ | ⟨i, hi, hp, rfl⟩ | ⟨i, hi, hp, he⟩
  · exact fetchExecute_of_illegal (s := s.withMode b) hd
  · exact fetchExecute_of_top (s := s.withMode b) hi hp
  · rw [fetchExecute_of_ready (s := s.withMode b) hi hp]
    exact exec_withMode he b

theorem pauseAgain_eq_ite (s : State) :
    pauseAgain s = { s with runState := if s.runState = .running then .paused else s.runState } := by
  by_cases h : s.runState = .running
  · rw [pauseAgain_of_running h, if_pos h]
  · rw [pauseAgain_of_ne h, if_neg h]

end Sys2Proof.Machine

namespace Sys2Proof.Proofs

open Sys2Proof.Machine

/-- Settles O51: the admission of each operation, read as its condition on the run state. -/
theorem hostOperationsAdmittedByRunState : Obligations.HostOperationsAdmittedByRunState := by
  intro op s
  cases op with
  | reset => exact hostStep_of_admission (iff_of_true rfl trivial)
  | load p start =>
    exact hostStep_of_admission ((admitted_load_iff p start s).trans (and_congr_right' (p.wf_iff start)))
  | start single => exact hostStep_of_admission (admitted_start_iff single s)
  | step => exact hostStep_of_admission (admitted_step_iff s)
  | resume => exact hostStep_of_admission (admitted_resume_iff s)
  | requestStop => exact hostStep_of_admission (admitted_requestStop_iff s)
  | supplyInput v => exact hostStep_of_admission (admitted_supplyInput_iff v s)

/-- Settles O53: each of the four operations where its condition admits it. -/
theorem hostControlEffects : Obligations.HostControlEffects := fun s =>
  ⟨fun hr hready => ⟨hostStep_start hr hready, hostStep_start hr hready⟩,
    fun hr => hostStep_of_admitted ((admitted_resume_iff s).mpr hr),
    fun hr => hostStep_of_admitted ((admitted_requestStop_iff s).mpr hr),
    fun hr hi v => hostStep_of_admitted ((admitted_supplyInput_iff v s).mpr ⟨hr, hi⟩)⟩

/-- Settles O49: `reset` is admitted in every state, and its state is a constant whose fields are evaluated. -/
theorem resetLeavesTheResetState : Obligations.ResetLeavesTheResetState :=
  ⟨fun _ => rfl, rfl, rfl, rfl, rfl, rfl, rfl, rfl, fun _ => rfl, rfl, rfl, rfl, rfl, rfl, rfl, rfl, rfl⟩

/-- Settles O50: distinct addresses in range make the last write to each cell the program's own. -/
theorem loadPlacesTheProgram : Obligations.LoadPlacesTheProgram := by
  intro s p start hmem hr hp
  refine ⟨loadProgram p start s, hostStep_load hr hp, fun c hc => loadProgram_memRead_mem hp hmem hc,
    fun b hb => ?_, mask12_toNat (Program.start_lt hp), rfl⟩
  exact copyProgram_read_other (Program.inRange_of_wf hp) hmem hb

/-- Settles O54: the load has put the program's first word at its start address, where the started machine fetches. -/
theorem bootRunsTheFirstWord : Obligations.BootRunsTheFirstWord := by
  intro s p start hp
  have hpc : (mask12 start).toNat = start := mask12_toNat (Program.start_lt hp)
  refine ⟨State.reset, loadProgram p start State.reset, startRun false (loadProgram p start State.reset), rfl,
    hostStep_load rfl hp, hostStep_start rfl rfl, ⟨rfl, rfl, rfl⟩, hpc, fun w hw => ?_⟩
  have hread := loadProgram_memRead_mem (s := State.reset) hp rfl (List.mem_of_head? hw)
  refine ⟨hread, fun i hi htop => ?_⟩
  have hne : mask12 start ≠ 4095#12 := fun h => htop (by rw [← hpc, h]; rfl)
  exact step_of_ready ⟨rfl, rfl, rfl⟩ ((congrArg decode hread).trans hi) hne

/-- Settles O52: a cycle with a fetch does not read the mode, so that of the paused machine, unpaused, is that of the
machine in continuous mode; and with its word supplied a blocked Input completes. -/
theorem singleStepIsOneCycle : Obligations.SingleStepIsOneCycle := by
  refine ⟨fun s hr hsingle hstop => ?_, fun s hr hi hsingle hstop => ?_⟩
  · obtain ⟨t, ht⟩ := fetchExecute_next { s with runState := .running, singleStep := false }
    have hruns : State.Runs { s with runState := .running, singleStep := false } := ⟨rfl, rfl, hstop⟩
    refine ⟨t, (step_eq_fetchExecute hruns).trans ht, ?_⟩
    have hunpause : unpause s = State.withMode { s with runState := .running, singleStep := false } true := by
      rw [unpause_of_paused hr, State.withMode, ← hsingle]
    have hcycle : cycle (unpause s) = .next (t.withMode true) := by
      rw [hunpause, cycle_of_running (by rfl)]
      exact fetchExecute_withMode ht true
    rw [hostStep_of_admitted ((admitted_step_iff s).mpr ⟨hsingle, hstop, .inl hr⟩)]
    exact (singleStepCycle_of_next hcycle).trans (congrArg _ (pauseAgain_eq_ite _))
  · rw [hostStep_of_admitted ((admitted_step_iff s).mpr ⟨hsingle, hstop, .inr ⟨hr, hi⟩⟩)]
    have hcycle : cycle (unpause s) = .next (completeInput s) := by
      rw [unpause_of_ne (by simp [hr]), cycle_of_supplied hr hi]
    exact singleStepCycle_of_next hcycle

end Sys2Proof.Proofs

/-! The invariant of a machine that has been reset (10_state.md sections 4 to 6). A step and a single-step call both
take a cycle, the one in continuous mode, the other between an unpausing and a pausing; what a cycle needs and what it
leaves are said once for both. -/

namespace Sys2Proof.Machine

/-- What holds of a state that meets the invariant when a cycle begins in it, whether by a step or, after the
unpausing, by a single-step call. -/
structure State.CycleStart (s : State) : Prop where
  mem : s.mem.wf = true
  noError : s.fatal = false ∧ s.errorKind = .none
  output : s.OutputConsistent
  latch : s.runState = .running → s.inputReady = false
  ready : s.ready = false
  stop : s.stopRequested = false

/-- What a cycle leaves: the invariant but for the single-step mode, with the hidden flags down, in one of the run
states a cycle ends in. -/
structure State.CycleEnd (s : State) : Prop where
  mem : s.mem.wf = true
  errors : s.ErrorsConsistent
  output : s.OutputConsistent
  latch : s.inputReady = false
  ready : s.ready = false
  stop : s.stopRequested = false
  runState : s.runState = .running ∨ s.runState = .blockedOnInput ∨ s.runState = .haltedNormal ∨
    s.runState = .haltedAbnormal

theorem State.errorsConsistent_of_noError {s : State} (hs : s.fatal = false ∧ s.errorKind = .none)
    (hr : s.runState ≠ .haltedAbnormal) : s.ErrorsConsistent := by
  obtain ⟨hfatal, hkind⟩ := hs
  simp [State.ErrorsConsistent, hfatal, hkind, hr]

theorem State.errorsConsistent_of_error {s : State} (hf : s.fatal = true) (hr : s.runState = .haltedAbnormal)
    (hk : s.errorKind ≠ .none ∧ s.errorKind ≠ .addressOutOfRange) : s.ErrorsConsistent := by
  simpa [State.ErrorsConsistent, hf, hr] using hk

/-- With the latch, `ready` and the stop request down, the control state is a matter of the single-step mode alone. -/
theorem State.controlConsistent_of_flags_down {s : State} (hlatch : s.inputReady = false) (hready : s.ready = false)
    (hstop : s.stopRequested = false) (hrun : s.runState = .running → s.singleStep = false)
    (hpause : s.runState = .paused → s.singleStep = true) : s.ControlConsistent :=
  ⟨by simp [hlatch], by simp [hready], by simp [hstop], hrun, hpause⟩

theorem fetchExecute_errorsConsistent {s t : State} (hr : s.runState = .running)
    (hs : s.fatal = false ∧ s.errorKind = .none) (h : fetchExecute s = .next t) : t.ErrorsConsistent := by
  obtain ⟨hfatal, hkind⟩ := hs
  rcases fetchExecute_control h with ⟨hf, hk, hrun⟩ | ⟨hf, hrun, hk⟩
  · refine State.errorsConsistent_of_noError ⟨hf.trans hfatal, hk.trans hkind⟩ ?_
    rcases hrun with hrun | hrun | hrun <;> simp [hrun, hr, hfatal]
  · exact State.errorsConsistent_of_error hf hrun hk

theorem fetchExecute_runState {s t : State} (hr : s.runState = .running) (h : fetchExecute s = .next t) :
    t.runState = .running ∨ t.runState = .blockedOnInput ∨ t.runState = .haltedNormal ∨
      t.runState = .haltedAbnormal := by
  rcases fetchExecute_control h with ⟨_, _, hrun | hrun | hrun⟩ | ⟨_, hrun, _⟩
  · exact .inl (hrun.trans hr)
  · exact .inr (.inl hrun)
  · cases hf : s.fatal <;> simp [hrun, hf]
  · exact .inr (.inr (.inr hrun))

theorem fetchExecute_outputConsistent {s t : State} (hs : s.OutputConsistent) (h : fetchExecute s = .next t) :
    t.OutputConsistent := by
  rcases fetchExecute_outputs h with ⟨hout, houts⟩ | ⟨_, _, houts, hout⟩
  · rwa [State.OutputConsistent, hout, houts]
  · simp [State.OutputConsistent, hout, houts]

/-- A cycle keeps the invariant's parts, and the single-step mode. -/
theorem cycle_end {s t : State} (hs : s.CycleStart) (h : cycle s = .next t) :
    t.CycleEnd ∧ t.singleStep = s.singleStep := by
  rcases cycle_cases h with ⟨_, _, rfl⟩ | ⟨hr, hf⟩
  · have herr : (completeInput s).ErrorsConsistent := State.errorsConsistent_of_noError hs.noError nofun
    exact ⟨⟨hs.mem, herr, hs.output, rfl, hs.ready, hs.stop, .inl rfl⟩, rfl⟩
  · obtain ⟨hlatch, hstop, hready, hsingle⟩ := fetchExecute_flags hf
    exact ⟨⟨fetchExecute_mem_wf hs.mem hf, fetchExecute_errorsConsistent hr hs.noError hf,
      fetchExecute_outputConsistent hs.output hf, hlatch.trans (hs.latch hr), hready.trans hs.ready,
      hstop.trans hs.stop, fetchExecute_runState hr hf⟩, hsingle⟩

/-- In a run that is not over there is neither an error nor `ready`. -/
theorem State.Inv.noError_of_live {s : State} (hs : s.Inv)
    (hr : s.runState = .running ∨ s.runState = .paused ∨ s.runState = .blockedOnInput) :
    (s.fatal = false ∧ s.errorKind = .none) ∧ s.ready = false := by
  obtain ⟨_, ⟨hfatal, hkind, _⟩, ⟨_, hready, _⟩, _⟩ := hs
  have hfatal' : s.fatal = false := by rcases hr with hr | hr | hr <;> simpa [hr] using hfatal
  refine ⟨⟨hfatal', hkind.mpr hfatal'⟩, ?_⟩
  rcases hr with hr | hr | hr <;> simpa [hr] using hready

theorem State.Inv.cycleStart {s : State} (hs : s.Inv) (hstop : s.stopRequested = false)
    (hr : s.runState = .running ∨ s.runState = .paused ∨ s.runState = .blockedOnInput) : s.CycleStart := by
  obtain ⟨hnone, hready⟩ := hs.noError_of_live hr
  obtain ⟨hmem, _, ⟨hlatch, _⟩, hout, _⟩ := hs
  exact ⟨hmem, hnone, hout, fun hrun => by simpa [hrun] using hlatch, hready, hstop⟩

/-- The end of a cycle in continuous mode meets the invariant. -/
theorem State.CycleEnd.inv {s : State} (hs : s.CycleEnd) (hsingle : s.singleStep = false) : s.Inv := by
  have hpause : s.runState ≠ .paused := by rcases hs.runState with hr | hr | hr | hr <;> simp [hr]
  refine ⟨hs.mem, hs.errors, State.controlConsistent_of_flags_down hs.latch hs.ready hs.stop (fun _ => hsingle)
    fun hr => absurd hr hpause, hs.output, ?_⟩
  rcases hs.runState with hr | hr | hr | hr <;> simp [hr]

/-- The end of a cycle in single-step mode meets the invariant once a machine that still runs is paused. -/
theorem State.CycleEnd.inv_pauseAgain {s : State} (hs : s.CycleEnd) (hsingle : s.singleStep = true) :
    (pauseAgain s).Inv := by
  by_cases hrun : s.runState = .running
  · rw [pauseAgain_of_running hrun]
    have herr : State.ErrorsConsistent { s with runState := .paused } := by
      simpa [State.ErrorsConsistent, hrun] using hs.errors
    exact ⟨hs.mem, herr, State.controlConsistent_of_flags_down hs.latch hs.ready hs.stop nofun fun _ => hsingle,
      hs.output, nofun, nofun⟩
  · rw [pauseAgain_of_ne hrun]
    refine ⟨hs.mem, hs.errors, State.controlConsistent_of_flags_down hs.latch hs.ready hs.stop
      (fun hr => absurd hr hrun) fun _ => hsingle, hs.output, ?_⟩
    rcases hs.runState with hr | hr | hr | hr <;> simp [hr]

/-- The stop transition ends a run without an error (R196). -/
theorem takeStop_inv {s : State} (hs : s.Inv)
    (hr : s.runState = .running ∨ s.runState = .paused ∨ s.runState = .blockedOnInput) : (takeStop s).Inv := by
  obtain ⟨hnone, hready⟩ := hs.noError_of_live hr
  obtain ⟨hmem, _, _, hout, _⟩ := hs
  have hctl : (takeStop s).ControlConsistent := by simp [State.ControlConsistent, takeStop, hready]
  exact ⟨hmem, State.errorsConsistent_of_noError hnone nofun, hctl, hout, nofun, nofun⟩

theorem step_inv {s t : State} (hs : s.Inv) (h : step s = .next t) : t.Inv := by
  rcases step_cases h with ⟨_, hr, rfl⟩ | ⟨hstop, hsingle, hc⟩
  · exact takeStop_inv hs hr
  · have hr : s.runState = .running ∨ s.runState = .paused ∨ s.runState = .blockedOnInput := by
      rcases cycle_cases hc with ⟨hr, _⟩ | ⟨hr, _⟩ <;> simp [hr]
    obtain ⟨hend, hsingle'⟩ := cycle_end (hs.cycleStart hstop hr) hc
    exact hend.inv (hsingle'.trans hsingle)

/-- A single-step call in a state that meets the invariant begins its cycle as a step does, in single-step mode. -/
theorem State.Inv.cycleStart_unpause {s : State} (hs : s.Inv) (h : admitted .step s = true) :
    (unpause s).CycleStart ∧ (unpause s).singleStep = true := by
  obtain ⟨hsingle, hstop, hr⟩ := (admitted_step_iff s).mp h
  rcases hr with hr | ⟨hr, _⟩
  · obtain ⟨hmem, hnone, hout, _, hready, _⟩ := hs.cycleStart hstop (.inr (.inl hr))
    obtain ⟨_, _, ⟨hlatch, _⟩, _⟩ := hs
    rw [unpause_of_paused hr]
    exact ⟨⟨hmem, hnone, hout, fun _ => by simpa [hr] using hlatch, hready, hstop⟩, hsingle⟩
  · rw [unpause_of_ne (by simp [hr])]
    exact ⟨hs.cycleStart hstop (.inr (.inr hr)), hsingle⟩

theorem singleStepCycle_inv {s t : State} (hs : s.Inv) (hadm : admitted .step s = true)
    (h : singleStepCycle s = .next t) : t.Inv := by
  obtain ⟨u, hc, rfl⟩ := singleStepCycle_cases h
  obtain ⟨hstart, hsingle⟩ := hs.cycleStart_unpause hadm
  obtain ⟨hend, hsingle'⟩ := cycle_end hstart hc
  exact hend.inv_pauseAgain (hsingle'.trans hsingle)

theorem reset_inv : State.reset.Inv := by decide

/-- A load takes the reset state to the ready-to-run state (R192). -/
theorem loadProgram_inv {p : Program} {start : Nat} {s : State} (hs : s.Inv) (hr : s.runState = .noProgramLoaded)
    (hp : p.wf start = true) : (loadProgram p start s).Inv := by
  obtain ⟨_, _, _, _, _, hreset⟩ := hs
  obtain rfl := hreset hr
  refine ⟨copyProgram_wf (Program.inRange_of_wf hp) rfl, ?_, ?_, rfl, nofun, nofun⟩
  · exact State.errorsConsistent_of_noError ⟨rfl, rfl⟩ nofun
  · exact ⟨nofun, fun _ => rfl, nofun, nofun, nofun⟩

theorem startRun_inv {single : Bool} {s : State} (hs : s.Inv) (hr : s.runState = .haltedNormal) :
    (startRun single s).Inv := by
  obtain ⟨hmem, ⟨hfatal, hkind, _⟩, ⟨hlatch, _⟩, hout, _⟩ := hs
  have hfatal' : s.fatal = false := by simpa [hr] using hfatal
  have hlatch' : s.inputReady = false := by simpa [hr] using hlatch
  refine ⟨hmem, State.errorsConsistent_of_noError ⟨hfatal', hkind.mpr hfatal'⟩ ?_,
    State.controlConsistent_of_flags_down hlatch' rfl rfl ?_ ?_, hout, ?_⟩ <;> cases single <;> simp [startRun]

theorem resumeRun_inv {s : State} (hs : s.Inv) (hr : s.runState = .paused) : (resumeRun s).Inv := by
  obtain ⟨hnone, hready⟩ := hs.noError_of_live (.inr (.inl hr))
  obtain ⟨hmem, _, ⟨hlatch, _⟩, hout, _⟩ := hs
  have hlatch' : s.inputReady = false := by simpa [hr] using hlatch
  have hctl : (resumeRun s).ControlConsistent := ⟨by simp [resumeRun, hlatch'], by simp [resumeRun, hready],
    fun _ => .inl rfl, fun _ => rfl, nofun⟩
  exact ⟨hmem, State.errorsConsistent_of_noError hnone nofun, hctl, hout, nofun, nofun⟩

theorem requestStop_inv {s : State} (hs : s.Inv)
    (hr : s.runState = .running ∨ s.runState = .paused ∨ s.runState = .blockedOnInput) : (requestStop s).Inv := by
  obtain ⟨hmem, herr, ⟨hlatch, hready, _, hmode⟩, hout, huninit, _⟩ := hs
  refine ⟨hmem, herr, ⟨hlatch, hready, fun _ => hr, hmode⟩, hout, huninit, fun hnone => ?_⟩
  have hnone' : s.runState = .noProgramLoaded := hnone
  simp [hnone'] at hr

theorem supplyWord_inv {v : Word} {s : State} (hs : s.Inv) (hr : s.runState = .blockedOnInput) :
    (supplyWord v s).Inv := by
  obtain ⟨hmem, herr, ⟨_, hready, hstop, hmode⟩, hout, huninit, _⟩ := hs
  refine ⟨hmem, herr, ⟨fun _ => .inl hr, hready, hstop, hmode⟩, hout, huninit, fun hnone => ?_⟩
  cases hr.symm.trans hnone

theorem hostStep_inv {op : HostOp} {s t : State} (hs : s.Inv) (h : hostStep op s = .next t) : t.Inv := by
  obtain ⟨hadm, he⟩ := hostStep_cases h
  cases op with
  | reset => cases he; exact reset_inv
  | load p start =>
    obtain ⟨hr, hp⟩ := (admitted_load_iff p start s).mp hadm
    cases he
    exact loadProgram_inv hs hr hp
  | start single => cases he; exact startRun_inv hs ((admitted_start_iff single s).mp hadm).1
  | step => exact singleStepCycle_inv hs hadm he
  | resume => cases he; exact resumeRun_inv hs ((admitted_resume_iff s).mp hadm)
  | requestStop => cases he; exact requestStop_inv hs ((admitted_requestStop_iff s).mp hadm)
  | supplyInput v => cases he; exact supplyWord_inv hs ((admitted_supplyInput_iff v s).mp hadm).1

/-- A machine that was never reset has no step (R190). -/
theorem step_ne_next_of_uninitialized {s : State} (hr : s.runState = .uninitialized) (t : State) :
    step s ≠ .next t := by
  rw [step_of_disabled (by simp [stopEnabled_iff, hr]) (by simp [runEnabled_iff, hr])]
  nofun

/-- The one operation a machine that was never reset admits is `reset` (R190). -/
theorem admitted_of_uninitialized {op : HostOp} {s : State} (hr : s.runState = .uninitialized)
    (h : admitted op s = true) : op = .reset := by
  cases op <;> simp [admitted, hr] at h ⊢

theorem reachable_created_or_inv {s : State} (h : Reachable s) : s = State.created ∨ s.Inv := by
  induction h with
  | created => exact .inl rfl
  | @machine s t _ hstep ih =>
    rcases ih with rfl | hs
    · exact absurd hstep (step_ne_next_of_uninitialized rfl t)
    · exact .inr (step_inv hs hstep)
  | @host s t op _ hop ih =>
    rcases ih with rfl | hs
    · obtain ⟨hadm, he⟩ := hostStep_cases hop
      obtain rfl := admitted_of_uninitialized rfl hadm
      cases he
      exact .inr reset_inv
    · exact .inr (hostStep_inv hs hop)

theorem step_mem_wf {s t : State} (hs : s.mem.wf = true) (h : step s = .next t) : t.mem.wf = true := by
  rcases step_next_cases h with ⟨_, _, rfl⟩ | rfl | ⟨_, hf⟩
  · exact hs
  · exact hs
  · exact fetchExecute_mem_wf hs hf

end Sys2Proof.Machine

namespace Sys2Proof.Proofs

open Sys2Proof.Machine

/-- Settles O57: the stop transition by itself, and a cycle by what it needs and what it leaves. -/
theorem stepKeepsTheInvariant : Obligations.StepKeepsTheInvariant := fun _ _ => step_inv

/-- Settles O58: operation by operation, the single-step call by its cycle. -/
theorem hostOperationsKeepTheInvariant : Obligations.HostOperationsKeepTheInvariant := fun _ _ _ => hostStep_inv

/-- Settles O59, by induction on how the state was reached: the created machine can only be reset. -/
theorem reachableStatesMeetTheInvariant : Obligations.ReachableStatesMeetTheInvariant := fun _ =>
  reachable_created_or_inv

/-- Settles O55: the reset state is a constant. -/
theorem resetMeetsTheInvariant : Obligations.ResetMeetsTheInvariant := reset_inv

/-- Settles O56: the one cell a step can write keeps the canonical form. -/
theorem stepKeepsMemoryCanonical : Obligations.StepKeepsMemoryCanonical := fun _ _ => step_mem_wf

end Sys2Proof.Proofs

/-! The execute phase of each instruction, in the fields it writes (R120 to R154): the memory's last-write law, the
ALU's two ends as one statement, and SkipCond's test as a condition on AC. -/

namespace Sys2Proof.Machine

/-- Every read after a sequence of writes gives the last word written to the cell (R56, R58). -/
theorem memRead_foldl_memWrite {s : State} (hs : s.mem.wf = true) (ws : List (Addr × Word)) (b : Addr) :
    (ws.foldl (fun r c => r.memWrite c.1 c.2) s).memRead b =
      ((ws.reverse.find? fun c => decide (c.1 = b)).map Prod.snd).getD (s.memRead b) := by
  induction ws generalizing s with
  | nil => rfl
  | cons c ws ih =>
    rw [List.foldl_cons, ih (State.memWrite_wf hs c.1 c.2), State.memRead_memWrite hs, List.reverse_cons,
      List.find?_append]
    cases ws.reverse.find? fun d => decide (d.1 = b) with
    | some d => rfl
    | none => by_cases hb : b = c.1 <;> simp [hb, @eq_comm _ c.1 b]

/-- An execute phase or a step that ends in the ALU's result on `n` is exact or raises `RegisterOverflow` (R130). -/
theorem exact_or_overflow_of_aluResult {o : Host.Outcome State Fault Refusal} {s : State} {n : Int}
    (h : o = .next (s.aluResult n)) :
    (-32768 ≤ n ∧ n ≤ 32767 → ∃ v : Word, v.toInt = n ∧ o = .next { s with ac := v }) ∧
      (¬(-32768 ≤ n ∧ n ≤ 32767) →
        o = .next { s with fatal := true, errorKind := .registerOverflow, runState := .haltedAbnormal }) := by
  refine ⟨fun hn => ⟨wordOf n, sval_wordOf hn, ?_⟩, fun hn => ?_⟩
  · rw [h, aluResult_of_inRange hn]
    rfl
  · rw [h, aluResult_of_overflow hn]
    rfl

theorem exec_add_eq (x : Addr) (s : State) : exec (.add x) s = .next (s.aluResult (s.ac.toInt + s.mbr.toInt)) := rfl

theorem exec_subt_eq (x : Addr) (s : State) : exec (.subt x) s = .next (s.aluResult (s.ac.toInt - s.mbr.toInt)) := rfl

theorem exec_addI_eq (x : Addr) (s : State) :
    exec (.addI x) s = .next ((s.readThrough (operandField s.mbr)).aluResult
      (s.ac.toInt + (s.memRead (operandField s.mbr)).toInt)) := by
  rw [← pointee_eq]
  rfl

theorem exec_jnS_eq (x : Addr) (s : State) :
    exec (.jnS x) s = .next ((s.memWrite x (s.pc.setWidth 16)).setPc (x + 1)) := by
  rw [← nextAddr_eq]
  rfl

theorem exec_jumpI_eq (x : Addr) (s : State) : exec (.jumpI x) s = .next (s.setPc (operandField s.mbr)) := by
  rw [← pointee_eq]
  rfl

theorem exec_halt_eq (s : State) :
    exec .halt s = .next { s with runState := if s.fatal then .haltedAbnormal else .haltedNormal } := rfl

/-- SkipCond's conditions 00, 01 and 10 on AC read signed (R152). -/
def SkipHolds (c : BitVec 2) (ac : Word) : Prop :=
  (c = 0 ∧ ac.toInt < 0) ∨ (c = 1 ∧ ac = 0) ∨ (c = 2 ∧ 0 < ac.toInt)

theorem sval_eq_zero_iff (w : Word) : sval w = 0 ↔ w = 0 := BitVec.toInt_inj (y := 0)

theorem cond_cases (c : BitVec 2) : c = 0 ∨ c = 1 ∨ c = 2 ∨ c = 3 := by
  revert c
  decide

theorem skipHolds_zero (ac : Word) : SkipHolds 0 ac ↔ ac.toInt < 0 := by simp [SkipHolds]

theorem skipHolds_one (ac : Word) : SkipHolds 1 ac ↔ ac.toInt = 0 :=
  (show SkipHolds 1 ac ↔ ac = 0 by simp [SkipHolds]).trans (sval_eq_zero_iff ac).symm

theorem skipHolds_two (ac : Word) : SkipHolds 2 ac ↔ 0 < ac.toInt := by simp [SkipHolds]

theorem skipTest_eq_some {c : BitVec 2} (hc : c ≠ 3) (ac : Word) :
    ∃ b, skipTest c ac = some b ∧ (b = true ↔ SkipHolds c ac) := by
  rcases cond_cases c with rfl | rfl | rfl | rfl
  · exact ⟨_, rfl, decide_eq_true_iff.trans (skipHolds_zero ac).symm⟩
  · exact ⟨_, rfl, decide_eq_true_iff.trans (skipHolds_one ac).symm⟩
  · exact ⟨_, rfl, decide_eq_true_iff.trans (skipHolds_two ac).symm⟩
  · exact absurd rfl hc

/-- A legal SkipCond whose condition holds goes one further. -/
theorem exec_skipCond_of_holds {c : BitVec 2} {s : State} (hc : c ≠ 3) (h : SkipHolds c s.ac) :
    exec (.skipCond c) s = .next { s with pc := s.pc + 1 } := by
  obtain ⟨b, hb, hiff⟩ := skipTest_eq_some hc s.ac
  obtain rfl := hiff.mpr h
  rw [exec, execSkipCond, hb, nextAddr_eq]
  rfl

/-- A legal SkipCond whose condition fails changes nothing. -/
theorem exec_skipCond_of_not_holds {c : BitVec 2} {s : State} (hc : c ≠ 3) (h : ¬SkipHolds c s.ac) :
    exec (.skipCond c) s = .next s := by
  obtain ⟨b, hb, hiff⟩ := skipTest_eq_some hc s.ac
  obtain rfl : b = false := by simpa using mt hiff.mp h
  rw [exec, execSkipCond, hb]

/-- Condition 11 raises `IllegalCondition` whatever AC holds (R152). -/
theorem exec_skipCond_three (s : State) : exec (.skipCond 3) s = .next (s.raiseFatal .illegalCondition) := rfl

/-- The two ends of a legal SkipCond in one, for a condition written as `P`. -/
theorem exec_skipCond_eq_ite {c : BitVec 2} {s : State} (hc : c ≠ 3) {P : Prop} [Decidable P]
    (hP : SkipHolds c s.ac ↔ P) :
    exec (.skipCond c) s = .next (if P then { s with pc := s.pc + 1 } else s) := by
  by_cases h : P
  · rw [if_pos h, exec_skipCond_of_holds hc (hP.mpr h)]
  · rw [if_neg h, exec_skipCond_of_not_holds hc (mt hP.mp h)]

end Sys2Proof.Machine

namespace Sys2Proof.Proofs

open Sys2Proof.Machine

/-- Settles O7, by induction on the writes: each one is seen by the reads after it unless a later one names its cell. -/
theorem readGivesTheLastWrite : Obligations.ReadGivesTheLastWrite := fun _ ws b hs =>
  memRead_foldl_memWrite hs ws b

/-- Settles O17: AC takes MBR. -/
theorem execLoadTakesMbr : Obligations.ExecLoadTakesMbr := fun _ _ => rfl

/-- Settles O19: AC takes 0. -/
theorem execClearZeroesAc : Obligations.ExecClearZeroesAc := fun _ => rfl

/-- Settles O23: the run state alone is written. -/
theorem execInputBlocks : Obligations.ExecInputBlocks := fun _ => rfl

/-- Settles O24: OUTPUT and the output sequence alone are written. -/
theorem execOutputEmitsAc : Obligations.ExecOutputEmitsAc := fun _ => rfl

/-- Settles O28: PC alone is written. -/
theorem execJumpSetsPc : Obligations.ExecJumpSetsPc := fun _ _ => rfl

/-- Settles O29: the cell a word names is that of its low 12 bits. -/
theorem execJumpISetsPcFromMbr : Obligations.ExecJumpISetsPcFromMbr := exec_jumpI_eq

/-- Settles O26: Halt's one test is of `fatal`. -/
theorem execHaltEndsTheRun : Obligations.ExecHaltEndsTheRun := fun s =>
  ⟨fun hf => by rw [exec_halt_eq, hf]; rfl, fun hf => by rw [exec_halt_eq, hf]; rfl⟩

/-- Settles O18: the last-write law at the cell MAR names. -/
theorem execStoreWritesTheCellAtMar : Obligations.ExecStoreWritesTheCellAtMar := by
  intro x s hmem
  have hread (b : Addr) := State.memRead_memWrite (s := s.setMbr s.ac) hmem s.mar b s.ac
  refine ⟨_, rfl, ?_, fun b hb => ?_, rfl⟩
  · exact (hread s.mar).trans (if_pos rfl)
  · exact (hread b).trans (if_neg hb)

/-- Settles O25: the last-write law at the cell the operand names. -/
theorem execJnSStoresTheReturnAddress : Obligations.ExecJnSStoresTheReturnAddress := by
  intro x s hmem
  have hread (b : Addr) := State.memRead_memWrite hmem x b (s.pc.setWidth 16)
  refine ⟨_, exec_jnS_eq x s, ?_, fun b hb => ?_, rfl⟩
  · exact (hread x).trans (if_pos rfl)
  · exact (hread b).trans (if_neg hb)

/-- Settles O20: the ALU's two ends at the sum of AC and MBR. -/
theorem execAddIsExactOrOverflows : Obligations.ExecAddIsExactOrOverflows := by
  intro x s
  obtain ⟨hexact, hover⟩ := exact_or_overflow_of_aluResult (exec_add_eq x s)
  exact ⟨fun hlo hhi => hexact ⟨hlo, hhi⟩, fun h => hover (by omega)⟩

/-- Settles O21: the ALU's two ends at the difference of AC and MBR. -/
theorem execSubtIsExactOrOverflows : Obligations.ExecSubtIsExactOrOverflows := by
  intro x s
  obtain ⟨hexact, hover⟩ := exact_or_overflow_of_aluResult (exec_subt_eq x s)
  exact ⟨fun hlo hhi => hexact ⟨hlo, hhi⟩, fun h => hover (by omega)⟩

/-- Settles O22: the ALU's two ends after one more read of memory, through the low 12 bits of MBR. -/
theorem execAddIAddsThroughThePointer : Obligations.ExecAddIAddsThroughThePointer := by
  rintro x s p w rfl rfl
  obtain ⟨hexact, hover⟩ := exact_or_overflow_of_aluResult (exec_addI_eq x s)
  exact ⟨fun hlo hhi => hexact ⟨hlo, hhi⟩, fun h => hover (not_and_or.mpr (h.imp not_le.mpr not_le.mpr))⟩

/-- Settles O27: each condition by its test, which the sign of AC decides. -/
theorem execSkipCondSkipsOnTheSignOfAc : Obligations.ExecSkipCondSkipsOnTheSignOfAc := by
  intro s
  have h0 := exec_skipCond_eq_ite (s := s) (by decide) (skipHolds_zero s.ac)
  have h1 := exec_skipCond_eq_ite (s := s) (by decide) (skipHolds_one s.ac)
  have h2 := exec_skipCond_eq_ite (s := s) (by decide) (skipHolds_two s.ac)
  rw [h0, h1, h2]
  refine ⟨fun hneg => ?_, fun hzero => ?_, fun hpos => ?_, exec_skipCond_three s, cond_cases⟩
  · rw [if_pos hneg, if_neg (by omega), if_neg (by omega)]
    exact ⟨rfl, rfl, rfl⟩
  · have hval : s.ac.toInt = 0 := (sval_eq_zero_iff s.ac).mpr hzero
    rw [if_pos hval, if_neg (by omega), if_neg (by omega)]
    exact ⟨rfl, rfl, rfl⟩
  · rw [if_pos hpos, if_neg (by omega), if_neg (by omega)]
    exact ⟨rfl, rfl, rfl⟩

/-- Settles O6: the ranges by the opcode and condition fields, and condition 11 by the execute phase that follows its
completed fetch. -/
theorem skipCondWordsTestTheAccumulator : Obligations.SkipCondWordsTestTheAccumulator := by
  refine ⟨fun w => ⟨fun h => decode_skipCond_of_range (c := 0) h, fun h => decode_skipCond_of_range (c := 1) h,
      fun h => decode_skipCond_of_range (c := 2) h, fun h => decode_skipCond_of_range (c := 3) h⟩,
    fun s => ⟨exec_skipCond_eq_ite (by decide) (skipHolds_zero s.ac),
      exec_skipCond_eq_ite (by decide) (skipHolds_one s.ac), exec_skipCond_eq_ite (by decide) (skipHolds_two s.ac)⟩,
    fun s hs hp hw => ?_⟩
  exact (step_of_ready hs (decode_skipCond_of_range (c := 3) hw) hp).trans (exec_skipCond_three _)

end Sys2Proof.Proofs

/-! The whole cycles of Add, Subt, AddI, Input, JnS, Halt, SkipCond, Jump and JumpI (42_arithmetic.md, 43_io.md,
44_control.md): the word fetches the instruction, which executes on what the fetch left. -/

namespace Sys2Proof.Machine

/-- A running machine below the top address executes what its word decodes to. -/
theorem step_of_word {s : State} {i : Instr} {w : Word} (hs : s.Runs) (hw : s.memRead s.pc = w)
    (hd : decode w = .instr i) (hp : s.pc ≠ 4095#12) : step s = exec i { s.atExecute i with ir := w } := by
  rw [step_of_ready hs ((congrArg decode hw).trans hd) hp, ← hw]
  rfl

/-- In BlockedOnInput with no word supplied the machine waits for the host. -/
theorem step_of_awaiting {s : State} (hr : s.runState = .blockedOnInput) (hi : s.inputReady = false)
    (hstop : s.stopRequested = false) : step s = .fault .holdAwaitingInput := by
  rw [step_of_disabled (by simp [stopEnabled_iff, hstop]) (by simp [runEnabled_iff, hr, hi])]
  simp [holdReason, hr, hi]

/-- In HaltedNormal without `ready` the run is over. -/
theorem step_of_haltedNormal {s : State} (hr : s.runState = .haltedNormal) (hready : s.ready = false) :
    step s = .fault .endHaltedNormal := by
  rw [step_of_disabled (by simp [stopEnabled_iff, hr]) (by simp [runEnabled_iff, hr])]
  simp [holdReason, hr, hready]

/-- The low 12 bits of a zero-extended address are the address. -/
theorem operandField_setWidth (a : Addr) : operandField (a.setWidth 16) = a := by
  apply BitVec.eq_of_toNat_eq
  simp [operandField]
  omega

end Sys2Proof.Machine

namespace Sys2Proof.Proofs

open Sys2Proof.Machine

/-- Settles O35: the ALU's two ends at AC and the pre-loaded word. -/
theorem cycleOfAdd : Obligations.CycleOfAdd := by
  rintro s x n hs hw hp rfl
  exact exact_or_overflow_of_aluResult ((step_of_word hs hw (decode_instrWord_add x) hp).trans (exec_add_eq x _))

/-- Settles O36: the ALU's two ends at AC and the pre-loaded word. -/
theorem cycleOfSubt : Obligations.CycleOfSubt := by
  rintro s x n hs hw hp rfl
  exact exact_or_overflow_of_aluResult ((step_of_word hs hw (decode_instrWord_subt x) hp).trans (exec_subt_eq x _))

/-- Settles O37: the pre-loaded word is the pointer, whose low 12 bits name the word that is added. -/
theorem cycleOfAddI : Obligations.CycleOfAddI := by
  rintro s x p n hs hw hp rfl rfl
  exact exact_or_overflow_of_aluResult ((step_of_word hs hw (decode_instrWord_addI x) hp).trans (exec_addI_eq x _))

/-- Settles O41: PC takes the operand, after the pre-load. -/
theorem cycleOfJump : Obligations.CycleOfJump := fun _ x hs hw hp =>
  step_of_word hs hw (decode_instrWord_jump x) hp

/-- Settles O42: PC takes the low 12 bits of the pre-loaded word. -/
theorem cycleOfJumpI : Obligations.CycleOfJumpI := fun _ x hs hw hp =>
  (step_of_word hs hw (decode_instrWord_jumpI x) hp).trans (exec_jumpI_eq x _)

/-- Settles O38: the last-write law at the operand's cell, which takes the PC the fetch left. -/
theorem cycleOfJnS : Obligations.CycleOfJnS := by
  intro s x hmem hs hw hp
  have hread (b : Addr) := State.memRead_memWrite hmem x b ((s.pc + 1).setWidth 16)
  refine ⟨_, (step_of_word hs hw (decode_instrWord_jnS x) hp).trans (exec_jnS_eq x _), ?_, fun b hb => ?_, rfl⟩
  · exact (hread x).trans (if_pos rfl)
  · exact (hread b).trans (if_neg hb)

/-- Settles O33: below the top address the machine blocks and waits; at it the fetch halts the machine first. -/
theorem cycleOfInput : Obligations.CycleOfInput := by
  refine ⟨rfl, fun s u hs hw => ⟨fun hp => ⟨?_, fun hi => ?_⟩, fun hp => ?_⟩⟩
  · exact step_of_word hs hw (decode_instrWord_input u) hp
  · obtain ⟨_, _, hstop⟩ := hs
    exact step_of_awaiting rfl hi hstop
  · have hf : s.Fetches .input := (congrArg decode hw).trans (decode_instrWord_input u)
    exact ⟨atTopAddress s .input, step_of_top hs hf hp, rfl, rfl, rfl⟩

/-- Settles O39: without an error Halt ends the run normally, and nothing is enabled in HaltedNormal. -/
theorem cycleOfHalt : Obligations.CycleOfHalt := by
  refine fun s u hs hw hp hfatal => ⟨?_, fun hready => step_of_haltedNormal rfl hready⟩
  rw [step_of_word hs hw (decode_instrWord_halt u) hp, exec_halt_eq, State.atExecute_fatal, hfatal]
  rfl

/-- Settles O40: the fetch has put PC one further, and the condition's test decides on one more. -/
theorem cycleOfSkipCond : Obligations.CycleOfSkipCond := by
  intro s c u hs hw hp hc
  have hstep := step_of_word hs hw (decode_instrWord_condOperand c u) hp
  have hpc : s.pc + 1 + 1 = s.pc + 2 := BitVec.add_assoc s.pc 1 1
  by_cases h : SkipHolds c s.ac
  · exact ⟨_, hstep.trans (exec_skipCond_of_holds hc h), rfl, fun _ => hpc, fun hn => absurd h hn⟩
  · exact ⟨_, hstep.trans (exec_skipCond_of_not_holds hc h), rfl, fun hn => absurd hn h, fun _ => rfl⟩

/-- Settles O43: the cell the call wrote holds the return address zero-extended, whose low 12 bits JumpI takes. -/
theorem jumpIReturnsFromJnS : Obligations.JumpIReturnsFromJnS := by
  intro s u v x hmem hs hi hp hu
  have hcall := (step_of_ready hs hi hp).trans (exec_jnS_eq x _)
  cases hcall.symm.trans hu
  refine ⟨rfl, fun hv hvi hvp hslot => ?_⟩
  have hread : v.memRead x = (s.pc + 1).setWidth 16 :=
    hslot.trans ((State.memRead_memWrite (s := s.atExecute (.jnS x)) hmem x x _).trans (if_pos rfl))
  refine ⟨_, (step_of_ready hv hvi hvp).trans (exec_jumpI_eq x _), ?_⟩
  exact (congrArg operandField hread).trans (operandField_setWidth (s.pc + 1))

/-- Settles O9: the Store leaves a running machine, so that the next fetch, of the very cell it wrote, reads AC. -/
theorem storeIsSeenByTheNextFetch : Obligations.StoreIsSeenByTheNextFetch := by
  intro s x hmem hs hi hp
  have hread (b : Addr) := State.memRead_memWrite (s := (s.atExecute (.store x)).setMbr s.ac) hmem x b s.ac
  have hcell := (hread x).trans (if_pos rfl)
  refine ⟨_, (step_of_ready hs hi hp).trans (exec_store_atExecute s x), hs, hcell, rfl, rfl, fun i hx htop hd => ?_⟩
  subst hx
  exact step_of_ready hs ((congrArg decode hcell).trans hd) htop

end Sys2Proof.Proofs

/-! Errors and outputs over the whole machine (60_exceptions.md, 43_io.md): the cause of each error, that an error is
final, that AddressOutOfRange is never raised, and that the output sequence only grows. -/

namespace Sys2Proof.Machine

/-- An execute phase that sets `fatal` met condition 11 or an exact result outside the word range; it has written
neither AC nor memory (R173). -/
theorem exec_raises {i : Instr} {s t : State} (h : exec i s = .next t) (hs : s.fatal = false) (ht : t.fatal = true) :
    (t.runState = .haltedAbnormal ∧ t.ac = s.ac ∧ t.mem = s.mem) ∧
      ((i = .skipCond 3 ∧ t.errorKind = .illegalCondition) ∨
        (t.errorKind = .registerOverflow ∧ ∃ n : Int, (n < -32768 ∨ 32767 < n) ∧
          ((∃ x, i = .add x ∧ n = s.ac.toInt + s.mbr.toInt) ∨
            (∃ x, i = .subt x ∧ n = s.ac.toInt - s.mbr.toInt) ∨
            (∃ x, i = .addI x ∧ n = s.ac.toInt + (s.memRead (operandField s.mbr)).toInt)))) := by
  have hset : s.fatal ≠ true := by simp [hs]
  cases i
  case skipCond c =>
    rcases execSkipCond_cases h with ⟨_, rfl⟩ | ⟨_, rfl⟩ | ⟨hc, rfl⟩
    · exact absurd ht hset
    · exact absurd ht hset
    · exact ⟨⟨rfl, rfl, rfl⟩, .inl ⟨congrArg _ (skipTest_eq_none hc), rfl⟩⟩
  case add x =>
    cases h
    rcases aluAdd_cases s with ⟨v, _, halu⟩ | ⟨hn, halu⟩ <;> rw [halu] at ht ⊢
    · exact absurd ht hset
    · exact ⟨⟨rfl, rfl, rfl⟩, .inr ⟨rfl, _, hn, .inl ⟨x, rfl, rfl⟩⟩⟩
  case subt x =>
    cases h
    rcases aluSub_cases s with ⟨v, _, halu⟩ | ⟨hn, halu⟩ <;> rw [halu] at ht ⊢
    · exact absurd ht hset
    · exact ⟨⟨rfl, rfl, rfl⟩, .inr ⟨rfl, _, hn, .inr (.inl ⟨x, rfl, rfl⟩)⟩⟩
  case addI x =>
    cases h
    rw [pointee_eq] at ht ⊢
    rcases aluAdd_cases (s.readThrough (operandField s.mbr)) with ⟨v, _, halu⟩ | ⟨hn, halu⟩ <;> rw [halu] at ht ⊢
    · exact absurd ht hset
    · exact ⟨⟨rfl, rfl, rfl⟩, .inr ⟨rfl, _, hn, .inr (.inr ⟨x, rfl, rfl⟩)⟩⟩
  all_goals
    cases h
    exact absurd ht hset

/-- A word that decodes to an instruction is below 0xD000 (R75). -/
theorem toNat_lt_of_decode {w : Word} {i : Instr} (h : decode w = .instr i) : w.toNat < 0xD000 := by
  by_contra hw
  obtain ⟨op, hop⟩ := (decode_illegal_iff_le w).mpr (not_lt.mp hw)
  cases h.symm.trans hop

/-- A cycle keeps an error once raised, and raises none of kind AddressOutOfRange. -/
theorem cycle_error {s t : State} (h : cycle s = .next t) :
    (s.fatal = true → t.fatal = true) ∧
      (s.errorKind ≠ .addressOutOfRange → t.errorKind ≠ .addressOutOfRange) := by
  rcases cycle_cases h with ⟨_, _, rfl⟩ | ⟨_, hf⟩
  · exact ⟨id, id⟩
  · rcases fetchExecute_control hf with ⟨hfatal, hkind, _⟩ | ⟨hfatal, _, _, hkind⟩
    · rw [hfatal, hkind]
      exact ⟨id, id⟩
    · exact ⟨fun _ => hfatal, fun _ => hkind⟩

theorem step_error {s t : State} (h : step s = .next t) :
    (s.fatal = true → t.fatal = true) ∧
      (s.errorKind ≠ .addressOutOfRange → t.errorKind ≠ .addressOutOfRange) := by
  rcases step_cases h with ⟨_, _, rfl⟩ | ⟨_, _, hc⟩
  · exact ⟨id, id⟩
  · exact cycle_error hc

theorem singleStepCycle_error {s t : State} (h : singleStepCycle s = .next t) :
    (s.fatal = true → t.fatal = true) ∧
      (s.errorKind ≠ .addressOutOfRange → t.errorKind ≠ .addressOutOfRange) := by
  obtain ⟨u, hc, rfl⟩ := singleStepCycle_cases h
  obtain ⟨r, hr⟩ := unpause_eq s
  obtain ⟨r', hr'⟩ := pauseAgain_eq u
  rw [hr] at hc
  rw [hr']
  have herr := cycle_error hc
  exact herr

/-- No operation of the host but `reset` clears an error, and none raises AddressOutOfRange. -/
theorem hostStep_error {op : HostOp} {s t : State} (h : hostStep op s = .next t) :
    (s.fatal = true → op ≠ .reset → t.fatal = true) ∧
      (s.errorKind ≠ .addressOutOfRange → t.errorKind ≠ .addressOutOfRange) := by
  obtain ⟨-, he⟩ := hostStep_cases h
  cases op with
  | reset => cases he; exact ⟨fun _ hop => absurd rfl hop, fun _ => nofun⟩
  | step =>
    obtain ⟨hfatal, hkind⟩ := singleStepCycle_error he
    exact ⟨fun hs _ => hfatal hs, hkind⟩
  | load p start => cases he; exact ⟨fun hs _ => hs, id⟩
  | start single => cases he; exact ⟨fun hs _ => hs, id⟩
  | resume => cases he; exact ⟨fun hs _ => hs, id⟩
  | requestStop => cases he; exact ⟨fun hs _ => hs, id⟩
  | supplyInput v => cases he; exact ⟨fun hs _ => hs, id⟩

/-- In HaltedAbnormal no operation but `reset` is admitted (R175). -/
theorem admitted_of_haltedAbnormal {op : HostOp} {s : State} (hr : s.runState = .haltedAbnormal)
    (h : admitted op s = true) : op = .reset := by
  cases op <;> simp [admitted, hr] at h ⊢

theorem step_of_haltedAbnormal {s : State} (hr : s.runState = .haltedAbnormal) :
    step s = .fault .endHaltedAbnormal := by
  rw [step_of_disabled (by simp [stopEnabled_iff, hr]) (by simp [runEnabled_iff, hr])]
  simp [holdReason, hr]

/-- A single-step call appends only as a paused machine's Output below the top address. -/
theorem singleStepCycle_outputs {s t : State} (hadm : admitted .step s = true) (h : singleStepCycle s = .next t) :
    t.outputs = s.outputs ∨
      (s.runState = .paused ∧ s.Fetches .output ∧ s.pc ≠ 4095#12 ∧ t.outputs = s.outputs ++ [s.ac] ∧
        t.output = s.ac) := by
  obtain ⟨u, hc, rfl⟩ := singleStepCycle_cases h
  obtain ⟨r, hpause⟩ := pauseAgain_eq u
  rw [hpause]
  obtain ⟨_, _, hr | ⟨hr, hi⟩⟩ := (admitted_step_iff s).mp hadm
  · rw [unpause_of_paused hr, cycle_of_running (by rfl)] at hc
    exact (fetchExecute_outputs hc).imp And.right fun hout => ⟨hr, hout⟩
  · rw [unpause_of_ne (by simp [hr]), cycle_of_supplied hr hi] at hc
    cases hc
    exact .inl rfl

end Sys2Proof.Machine

namespace Sys2Proof.Proofs

open Sys2Proof.Machine

/-- Settles O13: the fetch's own two errors in their order, and below the top address those of the execute phase, which
sees the pre-loaded word in MBR. -/
theorem everyErrorHasItsCause : Obligations.EveryErrorHasItsCause := by
  intro s t hs hfatal h ht
  rw [step_eq_fetchExecute hs] at h
  rcases fetchExecute_next_cases h with ⟨op, hd, rfl⟩ | ⟨i, hi, hp, rfl⟩ | ⟨i, hi, hp, he⟩
  · exact ⟨rfl, rfl, rfl, .inl ⟨(decode_illegal_iff_le _).mp ⟨op, hd⟩, rfl⟩⟩
  · exact ⟨rfl, rfl, rfl, .inr (.inl ⟨toNat_lt_of_decode hi, hp, rfl⟩)⟩
  · obtain ⟨⟨hr, hac, hmem⟩, hcause⟩ := exec_raises he hfatal ht
    refine ⟨hr, hac, hmem, .inr (.inr ?_)⟩
    rcases hcause with ⟨rfl, hk⟩ | ⟨hk, n, hn, ⟨x, rfl, hx⟩ | ⟨x, rfl, hx⟩ | ⟨x, rfl, hx⟩⟩
    · exact .inl ⟨hp, hi, hk⟩
    · exact .inr ⟨hp, hk, x, n, hn, .inl ⟨hi, hx⟩⟩
    · exact .inr ⟨hp, hk, x, n, hn, .inr (.inl ⟨hi, hx⟩)⟩
    · exact .inr ⟨hp, hk, x, n, hn, .inr (.inr ⟨hi, hx⟩)⟩

/-- Settles O47: nothing is enabled and nothing but `reset` admitted in HaltedAbnormal, and no transition but `reset`
clears `fatal`. -/
theorem errorsAreFinal : Obligations.ErrorsAreFinal := by
  refine ⟨fun s hr => ⟨step_of_haltedAbnormal hr, fun op hop => ?_, State.reset, rfl, rfl⟩,
    fun s t hs h => (step_error h).1 hs, fun op s t hs hop h => (hostStep_error h).1 hs hop⟩
  exact hostStep_of_not_admitted fun hadm => hop (admitted_of_haltedAbnormal hr hadm)

/-- Settles O48: the errors a cycle can raise are the other four, and only a cycle raises one. -/
theorem addressOutOfRangeIsNeverRaised : Obligations.AddressOutOfRangeIsNeverRaised :=
  ⟨fun _ _ hs h => (step_error h).2 hs, fun _ _ _ hs h => (hostStep_error h).2 hs⟩

/-- Settles O46: outputs are appended in a cycle with a fetch alone, which a step or a single-step call takes. -/
theorem outputSequenceOnlyGrows : Obligations.OutputSequenceOnlyGrows := by
  refine ⟨fun s t h => ?_, fun op s t hop h => ?_⟩
  · rcases step_next_cases h with ⟨_, _, rfl⟩ | rfl | ⟨hs, hf⟩
    · exact .inl rfl
    · exact .inl rfl
    · exact (fetchExecute_outputs hf).imp And.right fun hout => ⟨hs, hout⟩
  · obtain ⟨hadm, he⟩ := hostStep_cases h
    cases op with
    | reset => exact absurd rfl hop
    | step => exact (singleStepCycle_outputs hadm he).imp_right fun hout => ⟨rfl, hout⟩
    | load p start => cases he; exact .inl rfl
    | start single => cases he; exact .inl rfl
    | resume => cases he; exact .inl rfl
    | requestStop => cases he; exact .inl rfl
    | supplyInput v => cases he; exact .inl rfl

end Sys2Proof.Proofs
